-- ==== Sys2Proof/Word.lean ====
section
/-! DEFINITION. The two bit-vector types of the block: the 32-bit command word and the 8-bit byte. -/

namespace Sys2Proof

/-- A command word: 32 bits, unsigned (00_scope R8, 30_encoding R80). -/
abbrev Word := BitVec 32

/-- A byte: 8 bits, unsigned (00_scope R8). -/
abbrev Byte := BitVec 8

/-- A burst: the bytes of one transmission under one chip-select, first byte first
(00_scope R10, R13; 20_memory R53). -/
abbrev Burst := List Byte

end Sys2Proof
end

