-- ==== Sys2Proof/Syntax.lean ====
section
/-! DEFINITION. The commands of the block, one constructor per row of spec/opcode_table.json, and the names
their operands use: pixel states and chip registers. -/

namespace Sys2Proof

/-- The pixel states of SET, FILL_REGION and FILL_ALL (00_scope R12, 30_encoding R85). -/
inductive PixelState where
  | off
  | on
  | invert
  deriving DecidableEq, Repr

/-- The 14 named registers of a chip (41_register_protocol R130). `digit k` is the column register of
local column `k`. -/
inductive Reg where
  | noop
  | digit (k : Fin 8)
  | decodeMode
  | intensity
  | scanLimit
  | shutdown
  | displayTest
  deriving DecidableEq, Repr

/-- The commands (30_encoding R83, R84). Coordinates, sizes and chip indices are 32-bit unsigned words;
values are bytes; a column code is a byte (R87). -/
inductive Instr where
  /-- GET x, y (42_frame_buffer R150). -/
  | get (x y : Word)
  /-- SET x, y, state (42_frame_buffer R151). -/
  | set (st : PixelState) (x y : Word)
  /-- FILL_REGION x0, y0, w, h, state (42_frame_buffer R153). -/
  | fillRegion (st : PixelState) (x0 y0 w h : Word)
  /-- FILL_ALL state (42_frame_buffer R155). -/
  | fillAll (st : PixelState)
  /-- RENDER (43_renderer R171). -/
  | render
  /-- WRITE_ONE chip_index, register, value (41_register_protocol R133). -/
  | writeOne (reg : Reg) (value : Byte) (chip : Word)
  /-- WRITE_ALL register, value (41_register_protocol R135). -/
  | writeAll (reg : Reg) (value : Byte)
  /-- WRITE_COLUMN_ALL column, values[0 .. N-1] (41_register_protocol R137). -/
  | writeColumnAll (column : Byte) (values : List Byte)
  deriving DecidableEq, Repr

end Sys2Proof
end

