-- ==== Sys2Proof/Config.lean ====
section
/-! DEFINITION. What is fixed for a run (the configuration argument) and the free values: constants with no body,
of which nothing can be proved but what holds for every value. -/

namespace Sys2Proof

/-- The chip grid as naturals: chips per row and chip rows (10_state R20). -/
structure Grid where
  cols : Nat
  rows : Nat
  deriving DecidableEq, Repr

/-- The configuration argument of a run (00_scope R7, 10_state R44): naturals, which a reset checks
(70_reset_and_hazards R221) and loads into the configuration registers. -/
structure ConfigArg where
  cols : Nat
  rows : Nat
  brightness : Nat
  deriving DecidableEq, Repr

/-- DESIGN CHOICE (log 1), unsafe: the configuration argument of `State.reset`, the one of the spec's reset
vector RST1. The spec fixes no default (10_state R20); every statement about all states holds for every
configuration. -/
def Config.resetArg : ConfigArg := { cols := 2, rows := 1, brightness := 8 }

/-- Free value (log 4), safe: the `TRANSPORT_OK` draw of number `i`, taken when the transport has not already
fixed its next answer (10_state R30: a draw from true and false under no law). -/
opaque Config.transportOk : (i : Nat) → Bool

/-- Free value (log 5), safe: `CHAIN_POWERUP`, what register `r` of chip `k` holds at power-up (10_state R40). -/
opaque Config.chainPowerUp : (k : Nat) → (r : Reg) → Byte

/-- Free value (log 6), safe: `CHAIN_AFTER_FAULT`, what register `r` of chip `k` holds after transport failure
number `f` (60_exceptions R193). -/
opaque Config.chainAfterFault : (f : Nat) → (k : Nat) → (r : Reg) → Byte

/-- Free value (log 20), safe: whether the LED of pixel `(x, y)` is lit before the chips have latched both INIT_CHAIN and
a RENDER, after `sent` bursts since transport failure number `f` (70_reset_and_hazards R223, R224, R231;
93_implementation_defined U10). -/
opaque Config.displayBeforeBoot : (f sent x y : Nat) → Bool

/-- Free value (log 9), safe: what COLS holds when the configuration argument does not fit 32 bits. -/
opaque Config.unfitCols : (arg : Nat) → Word

/-- Free value (log 9), safe: what ROWS holds when the configuration argument does not fit 32 bits. -/
opaque Config.unfitRows : (arg : Nat) → Word

/-- Free value (log 9), safe: what BRIGHTNESS holds when the configuration argument does not fit 4 bits. -/
opaque Config.unfitBrightness : (arg : Nat) → BitVec 4

end Sys2Proof
end

