-- ==== Sys2Proof/WellFormed.lean ====
section
/-! DEFINITION. Which commands exist on a chain of `n` chips. The types of the operands say everything but one
thing: WRITE_COLUMN_ALL carries exactly `n` values (30_encoding R82). -/

namespace Sys2Proof

/-- A command is well formed for `n` chips when it has the number of operands R82 gives it. -/
def Instr.wellFormed (n : Nat) (i : Instr) : Bool :=
  match i with
  | .get _ _ => true
  | .set _ _ _ => true
  | .fillRegion _ _ _ _ _ => true
  | .fillAll _ => true
  | .render => true
  | .writeOne _ _ _ => true
  | .writeAll _ _ => true
  | .writeColumnAll _ values => values.length == n

end Sys2Proof
end

