-- ==== Sys2Proof/Decode.lean ====
section
/-! DEFINITION. The codec of 30_encoding: fields of a header word, register and state codes, the decoder of one
command (R88), the encoder (R93), and the decoder as the opcode table numbers its bits. -/

namespace Sys2Proof

/-! ### Fields of a header word (R80) -/

/-- `OPC`, bits [31:24]. -/
def opcField (h : Word) : Byte := h.extractLsb' 24 8

/-- `SUB`, bits [23:16]. -/
def subField (h : Word) : Byte := h.extractLsb' 16 8

/-- `VAL`, bits [15:8]. -/
def valField (h : Word) : Byte := h.extractLsb' 8 8

/-- `RSV`, bits [7:0]. -/
def rsvField (h : Word) : Byte := h.extractLsb' 0 8

/-- A header word from its four fields (R80, R93). -/
def headerWord (opc sub val rsv : Byte) : Word := opc ++ sub ++ val ++ rsv

/-- A payload word's value byte, bits [7:0] (R81, R84). -/
def payloadByte (w : Word) : Byte := w.extractLsb' 0 8

/-- A payload word's reserved bits [31:8] (R81). -/
def payloadReserved (w : Word) : BitVec 24 := w.extractLsb' 8 24

/-! ### Codes -/

/-- The state code in `SUB` (R85). -/
def stateCode (st : PixelState) : Byte :=
  match st with
  | .off => 0x00#8
  | .on => 0x01#8
  | .invert => 0x02#8

/-- The state a code names; codes 0x03 to 0xFF are reserved (R85). -/
def stateOfCode (c : Byte) : Option PixelState :=
  if c = 0x00#8 then some .off
  else if c = 0x01#8 then some .on
  else if c = 0x02#8 then some .invert
  else none

/-- The address byte of a register (41_register_protocol R130; log 3), which is also its code in `SUB` (R86). -/
def regAddr (r : Reg) : Byte :=
  match r with
  | .noop => 0x00#8
  | .digit k => BitVec.ofNat 8 (k.val + 1)
  | .decodeMode => 0x09#8
  | .intensity => 0x0A#8
  | .scanLimit => 0x0B#8
  | .shutdown => 0x0C#8
  | .displayTest => 0x0F#8

/-- The register a code names; 0x0D, 0x0E and 0x10 to 0xFF name none (R86). -/
def regOfAddr (c : Byte) : Option Reg :=
  if c = 0x00#8 then some .noop
  else if c ≤ 0x08#8 then some (.digit (Fin.ofNat 8 (c.toNat - 1)))
  else if c = 0x09#8 then some .decodeMode
  else if c = 0x0A#8 then some .intensity
  else if c = 0x0B#8 then some .scanLimit
  else if c = 0x0C#8 then some .shutdown
  else if c = 0x0F#8 then some .displayTest
  else none

/-- The eight opcodes (R83). -/
inductive Opcode where
  | get
  | set
  | fillRegion
  | fillAll
  | render
  | writeOne
  | writeAll
  | writeColumnAll
  deriving DecidableEq, Repr

/-- The `OPC` value of an opcode (R83). -/
def opcodeCode (op : Opcode) : Byte :=
  match op with
  | .get => 0x01#8
  | .set => 0x02#8
  | .fillRegion => 0x03#8
  | .fillAll => 0x04#8
  | .render => 0x05#8
  | .writeOne => 0x06#8
  | .writeAll => 0x07#8
  | .writeColumnAll => 0x08#8

/-- The opcode an `OPC` value names; 0x00 and 0x09 to 0xFF are reserved (R83, R89). -/
def opcodeOfCode (c : Byte) : Option Opcode :=
  if c = 0x01#8 then some .get
  else if c = 0x02#8 then some .set
  else if c = 0x03#8 then some .fillRegion
  else if c = 0x04#8 then some .fillAll
  else if c = 0x05#8 then some .render
  else if c = 0x06#8 then some .writeOne
  else if c = 0x07#8 then some .writeAll
  else if c = 0x08#8 then some .writeColumnAll
  else none

/-- The `match` column of the opcode map (R83). -/
def opcodeMatch (op : Opcode) : Word := headerWord (opcodeCode op) 0#8 0#8 0#8

/-- The `mask` column of the opcode map (R83). -/
def opcodeMask (op : Opcode) : Word :=
  match op with
  | .get | .render => 0xFFFFFFFF#32
  | .set | .fillRegion | .fillAll | .writeColumnAll => 0xFF00FFFF#32
  | .writeOne | .writeAll => 0xFF0000FF#32

/-- `K`, the number of operand words, on a chain of `n` chips (R82). -/
def operandCount (n : Nat) (op : Opcode) : Nat :=
  match op with
  | .get => 2
  | .set => 2
  | .fillRegion => 4
  | .fillAll => 0
  | .render => 0
  | .writeOne => 1
  | .writeAll => 0
  | .writeColumnAll => n

/-- The opcode of a command. -/
def Instr.opcode (i : Instr) : Opcode :=
  match i with
  | .get _ _ => .get
  | .set _ _ _ => .set
  | .fillRegion _ _ _ _ _ => .fillRegion
  | .fillAll _ => .fillAll
  | .render => .render
  | .writeOne _ _ _ => .writeOne
  | .writeAll _ _ => .writeAll
  | .writeColumnAll _ _ => .writeColumnAll

/-- The length of a command in words, header included (R82). -/
def Instr.words (n : Nat) (i : Instr) : Nat := 1 + operandCount n i.opcode

/-! ### Decoding (R88) -/

/-- The reasons of a refusal (60_exceptions R191). The decoder gives the first five; a reset gives the last. -/
inductive RefuseReason where
  | reservedOpcode
  | reservedField
  | reservedState
  | reservedRegister
  | reservedPayload
  | illegalConfiguration
  deriving DecidableEq, Repr

/-- The reason code of a refusal (60_exceptions R191). -/
def reasonCode (r : RefuseReason) : Byte :=
  match r with
  | .reservedOpcode => 1#8
  | .reservedField => 2#8
  | .reservedState => 3#8
  | .reservedRegister => 4#8
  | .reservedPayload => 5#8
  | .illegalConfiguration => 6#8

/-- The reason code of a transport failure (60_exceptions R193). -/
def transportFailureCode : Byte := 16#8

/-- A legal header word with its sub-operand and value read, before its operand words are. -/
inductive Header where
  | get
  | set (st : PixelState)
  | fillRegion (st : PixelState)
  | fillAll (st : PixelState)
  | render
  | writeOne (reg : Reg) (value : Byte)
  | writeAll (reg : Reg) (value : Byte)
  | writeColumnAll (column : Byte)
  deriving DecidableEq, Repr

/-- What the decoder answers (R88): a command, not all words present, or a refusal by reason. -/
inductive Decoded where
  | command (i : Instr)
  | wait
  | refuse (r : RefuseReason)
  deriving DecidableEq, Repr

/-- The state operand of a header, or the refusal of a reserved state code (R88, R89). -/
def withState (h : Word) (k : PixelState → Header) : Except RefuseReason Header :=
  match stateOfCode (subField h) with
  | some st => .ok (k st)
  | none => .error .reservedState

/-- The register operand of a header, or the refusal of a reserved register code (R88, R89). -/
def withRegister (h : Word) (k : Reg → Header) : Except RefuseReason Header :=
  match regOfAddr (subField h) with
  | some r => .ok (k r)
  | none => .error .reservedRegister

/-- The checks of R88 that the header word alone decides, in R88's order: opcode, `RSV`, `SUB` of GET and
RENDER, `VAL` of all but WRITE_ONE and WRITE_ALL, state code, register code. -/
def decodeHeader (h : Word) : Except RefuseReason Header :=
  match opcodeOfCode (opcField h) with
  | none => .error .reservedOpcode
  | some op =>
    if rsvField h ≠ 0#8 then .error .reservedField
    else if (op = .get ∨ op = .render) ∧ subField h ≠ 0#8 then .error .reservedField
    else if ¬(op = .writeOne ∨ op = .writeAll) ∧ valField h ≠ 0#8 then .error .reservedField
    else
      match op with
      | .get => .ok .get
      | .set => withState h .set
      | .fillRegion => withState h .fillRegion
      | .fillAll => withState h .fillAll
      | .render => .ok .render
      | .writeOne => withRegister h (fun r => .writeOne r (valField h))
      | .writeAll => withRegister h (fun r => .writeAll r (valField h))
      | .writeColumnAll => .ok (.writeColumnAll (subField h))

/-- The operand words of a legal header (R82, R84) out of the words that follow it: waits while they are not
all present, and refuses a payload word with a reserved bit set. -/
def decodeOperands (n : Nat) (hd : Header) (ws : List Word) : Decoded :=
  match hd with
  | .get =>
    match ws with
    | x :: y :: _ => .command (.get x y)
    | _ => .wait
  | .set st =>
    match ws with
    | x :: y :: _ => .command (.set st x y)
    | _ => .wait
  | .fillRegion st =>
    match ws with
    | x0 :: y0 :: w :: h :: _ => .command (.fillRegion st x0 y0 w h)
    | _ => .wait
  | .fillAll st => .command (.fillAll st)
  | .render => .command .render
  | .writeOne r v =>
    match ws with
    | i :: _ => .command (.writeOne r v i)
    | _ => .wait
  | .writeAll r v => .command (.writeAll r v)
  | .writeColumnAll c =>
    if ws.length < n then .wait
    else if (ws.take n).any (fun w => payloadReserved w != 0#24) then .refuse .reservedPayload
    else .command (.writeColumnAll c ((ws.take n).map payloadByte))

/-- The decode of one command (R88): a function of the words present from `cpos` on and of `N`. -/
def decode (n : Nat) (ws : List Word) : Decoded :=
  match ws with
  | [] => .wait
  | h :: rest =>
    match decodeHeader h with
    | .error r => .refuse r
    | .ok hd => decodeOperands n hd rest

/-! ### Encoding (R80 to R87, R93) -/

/-- The header word of a command with its sub-operand and value; reserved fields are 0 (R80, R83). -/
def encodeHeader (i : Instr) : Word :=
  match i with
  | .get _ _ => headerWord 0x01#8 0#8 0#8 0#8
  | .set st _ _ => headerWord 0x02#8 (stateCode st) 0#8 0#8
  | .fillRegion st _ _ _ _ => headerWord 0x03#8 (stateCode st) 0#8 0#8
  | .fillAll st => headerWord 0x04#8 (stateCode st) 0#8 0#8
  | .render => headerWord 0x05#8 0#8 0#8 0#8
  | .writeOne r v _ => headerWord 0x06#8 (regAddr r) v 0#8
  | .writeAll r v => headerWord 0x07#8 (regAddr r) v 0#8
  | .writeColumnAll c _ => headerWord 0x08#8 c 0#8 0#8

/-- The operand words of a command (R82, R84); a payload word is its byte, zero-extended (R81). -/
def encodeOperands (i : Instr) : List Word :=
  match i with
  | .get x y => [x, y]
  | .set _ x y => [x, y]
  | .fillRegion _ x0 y0 w h => [x0, y0, w, h]
  | .fillAll _ => []
  | .render => []
  | .writeOne _ _ chip => [chip]
  | .writeAll _ _ => []
  | .writeColumnAll _ values => values.map (fun v => v.zeroExtend 32)

/-- The words of a command (R93). -/
def encode (i : Instr) : List Word := encodeHeader i :: encodeOperands i

/-! ### The opcode table's numbering of bits -/

/-- The longest command on a chain of `n` chips, in words (R82). -/
def longestCommand (n : Nat) : Nat := max 5 (1 + n)

/-- The words of an instruction whose first `nbits` bits are `w`, bit 0 the least significant bit of the first
word, with every bit above them 0, up to the longest command. -/
def tableWords (n nbits w : Nat) : List Word :=
  (List.range (max ((nbits + 31) / 32) (longestCommand n))).map
    (fun j => BitVec.ofNat 32 ((w % 2 ^ nbits) / 2 ^ (32 * j)))

/-- The instruction the decoder reads from the table's bits, on the chain of `State.reset` (log 1). -/
def decodeTableWord (nbits w : Nat) : Option Instr :=
  let n := Config.resetArg.cols * Config.resetArg.rows
  match decode n (tableWords n nbits w) with
  | .command i => some i
  | .wait => none
  | .refuse _ => none

end Sys2Proof
end

