-- ==== Sys2Proof/Machine/Configure.lean ====
section
/-! DEFINITION. The configuration: which arguments are legal (70_reset_and_hazards R221) and what a reset loads
into the configuration registers (10_state R20, R22). -/

namespace Sys2Proof.Machine

/-- A configuration argument is legal (R221, the negation of its list of illegal cases). -/
def configLegal (arg : ConfigArg) : Bool :=
  decide (1 ≤ arg.cols) && decide (1 ≤ arg.rows) && decide (arg.cols ≤ 2 ^ 29) && decide (arg.rows ≤ 2 ^ 29)
    && decide (arg.cols * arg.rows ≤ 2 ^ 32 - 1) && decide (arg.brightness ≤ 15)

/-- What a reset loads into COLS (R220): the argument; a free value when it does not fit 32 bits (log 9). -/
def loadCols (arg : ConfigArg) : Word :=
  if arg.cols < 2 ^ 32 then BitVec.ofNat 32 arg.cols else Config.unfitCols arg.cols

/-- What a reset loads into ROWS (R220): the argument; a free value when it does not fit 32 bits (log 9). -/
def loadRows (arg : ConfigArg) : Word :=
  if arg.rows < 2 ^ 32 then BitVec.ofNat 32 arg.rows else Config.unfitRows arg.rows

/-- What a reset loads into BRIGHTNESS (R220): the argument; a free value when it does not fit 4 bits (log 9). -/
def loadBrightness (arg : ConfigArg) : BitVec 4 :=
  if arg.brightness < 2 ^ 4 then BitVec.ofNat 4 arg.brightness else Config.unfitBrightness arg.brightness

end Sys2Proof.Machine
end

