-- ==== Sys2Proof/Machine/State.lean ====
section
/-! DEFINITION. The state: the block (10_state section 7), and as plain data the environment and inputs its rules
speak of (10_state R33, R40, R44). The reasons a step can stop. The state right after power-up and reset. -/

namespace Sys2Proof.Machine

/-- The third field of HALT_INFO (10_state R28): nothing, the refused header word, or the failed burst. -/
inductive HaltDetail where
  | nothing
  | header (w : Word)
  | burst (b : Burst)
  deriving DecidableEq, Repr

/-- HALT_INFO, the record of the event that halted the block (10_state R28). -/
structure HaltInfo where
  /-- The reason code (60_exceptions R191, R193). -/
  code : Byte
  /-- The command position at which the event occurred. -/
  cpos : Nat
  /-- The header word or the failed burst. -/
  detail : HaltDetail
  deriving DecidableEq, Repr

/-- What the host may do to the block between two of its steps (60_exceptions R202; log 2). -/
inductive HostAction where
  /-- Present more words on the command port (10_state R33). -/
  | present (ws : List Word)
  /-- Reset the block (70_reset_and_hazards R220); `ws` are the words on the command port after it (log 8). -/
  | reset (ws : List Word)
  /-- Do nothing while the block takes one step. -/
  | grant
  deriving DecidableEq, Repr

/-- A burst the transport has delivered and the command that emitted it (41_register_protocol R133, R135, R137,
43_renderer R171; log 20). -/
structure Sent where
  cmd : Instr
  burst : Burst
  deriving DecidableEq, Repr

/-- The state of the block and of its environment. -/
structure State where
  /-- COLS (10_state R20). -/
  cols : Word
  /-- ROWS (10_state R20). -/
  rows : Word
  /-- BRIGHTNESS (10_state R22). -/
  brightness : BitVec 4
  /-- FB, the frame-buffer storage (10_state R25): rising addresses, no byte 0x00 listed (log 14). -/
  fb : List Host.Cell
  /-- REFUSED (10_state R27). -/
  refused : Bool
  /-- FAULT (10_state R27). -/
  fault : Bool
  /-- HALT_INFO (10_state R28). -/
  haltInfo : Option HaltInfo
  /-- OUT, the bursts handed to the transport, oldest first (10_state R30). -/
  out : List Burst
  /-- RESP, the bits GET answered, oldest first (10_state R32). -/
  resp : List Bool
  /-- The command position (10_state R35). -/
  cpos : Nat
  /-- Input: the configuration argument of the run (10_state R44). -/
  cfgArg : ConfigArg
  /-- Input: CMD, the words the host has presented so far (10_state R33; log 2). -/
  cmd : List Word
  /-- Input: the host's pending actions, the model's own field (log 2). -/
  host : List HostAction
  /-- Input: the TRANSPORT_OK answers the transport has fixed, next one first; the model's own field (log 4). -/
  answers : List Bool
  /-- How many free TRANSPORT_OK draws have been taken; the model's own field (log 4). -/
  draws : Nat
  /-- Environment: CHAIN, the registers latched since the last draw of the chain (10_state R40), by the key
  `16 * chip + register address`, keys rising (log 7). -/
  chain : List Host.Cell
  /-- How many transport failures the chain has seen; the model's own field (log 6). -/
  chainEpoch : Nat
  /-- Environment: the bursts the chain has latched since power-up or the last transport failure, oldest first, each
  with its command, by which the chain is booted or not (10_state R43, 70_reset_and_hazards R223); the model's own
  field (log 20). -/
  delivered : List Sent
  deriving DecidableEq, Repr

/-- The reasons a step stops with a fault. -/
inductive Fault where
  /-- Raised by the step of a block whose FAULT flag is set: it takes no step until a reset
  (60_exceptions R198). Safe: the spec lets nothing happen here. -/
  | haltedFault
  /-- Raised by an access to frame-buffer storage at an address not below `8 * N`, where the spec defines none
  (20_memory R51; log 16). No command ever makes one (`pixelWrite_eq`, `fillBytes_eq`, `renderBursts_eq` in Laws). Safe. -/
  | storageAddress
  deriving DecidableEq, Repr

/-- The reasons a step is refused. -/
inductive Refusal where
  /-- Raised only by an arm of `exec` whose command has no meaning yet (none has been left). Safe. -/
  | notModelled (mnemonic : String)
  /-- Raised by the step of a block whose REFUSED flag is set: it takes no step until a reset
  (60_exceptions R198). Safe: the spec lets nothing happen here. -/
  | haltedRefused
  /-- Raised where a burst of a length other than `2 * N`, or with a register byte that names no register, would
  be emitted (10_state R42; log 16). No command ever makes one (`emitAll_of_legal` in Laws). Safe. -/
  | illegalBurst
  deriving DecidableEq, Repr

/-- Power-up and its reset (70_reset_and_hazards R220, R221) with a configuration argument: every register of the
block at the value R220 gives it, the chain a draw (R222), no word presented, no answer of the transport fixed. -/
def State.powerUp (arg : ConfigArg) : State where
  cols := loadCols arg
  rows := loadRows arg
  brightness := loadBrightness arg
  fb := []
  refused := !configLegal arg
  fault := false
  haltInfo := if configLegal arg then none else some ⟨reasonCode .illegalConfiguration, 0, .nothing⟩
  out := []
  resp := []
  cpos := 0
  cfgArg := arg
  cmd := []
  host := []
  answers := []
  draws := 0
  chain := []
  chainEpoch := 0
  delivered := []

/-- The machine right after reset, with the configuration argument of log 1. -/
def State.reset : State := State.powerUp Config.resetArg

end Sys2Proof.Machine
end

