-- ==== Sys2Proof/Machine/Flags.lean ====
section
/-! DEFINITION. The flags REFUSED and FAULT (10_state R27): the run status they give (R36), and setting them. The
block has no condition codes, so no other flag is computed (R27). -/

namespace Sys2Proof.Machine

/-- The run status (10_state R36). -/
inductive RunStatus where
  | running
  | haltedRefused
  | haltedFault
  deriving DecidableEq, Repr

/-- The run status the flags give (10_state R36). -/
def State.status (s : State) : RunStatus :=
  if s.refused then .haltedRefused
  else if s.fault then .haltedFault
  else .running

/-- Set REFUSED and record the event (60_exceptions R191). -/
def State.setRefused (s : State) (info : HaltInfo) : State :=
  { s with refused := true, haltInfo := some info }

/-- Set FAULT and record the event (60_exceptions R193). -/
def State.setFault (s : State) (info : HaltInfo) : State :=
  { s with fault := true, haltInfo := some info }

end Sys2Proof.Machine
end

