-- ==== Sys2Proof/Machine/Operands.lean ====
section
/-! DEFINITION. The frame-buffer address decoder (40_addressing), the register multiplexer's pairs
(41_register_protocol R130, R131), and what a pixel state does to a bit (42_frame_buffer). Pure functions. -/

namespace Sys2Proof.Machine

/-! ### The grid (10_state R21) -/

/-- `N`, the chip count. -/
def gridN (g : Grid) : Nat := g.cols * g.rows

/-- `W`, the width in pixels. -/
def gridW (g : Grid) : Nat := g.cols * 8

/-- `H`, the height in pixels. -/
def gridH (g : Grid) : Nat := g.rows * 8

/-- The grid of a state's configuration registers. -/
def State.grid (s : State) : Grid := { cols := s.cols.toNat, rows := s.rows.toNat }

/-- `N` of a state. -/
def State.n (s : State) : Nat := gridN s.grid

/-! ### The address decoder (R110 to R117) -/

/-- `chip_index(cc, cr)` (R110). A model that is asked it outside the grid refuses: `none` (R110, U1; log 16). -/
def chipIndex (g : Grid) (cc cr : Nat) : Option Nat :=
  if cc < g.cols ∧ cr < g.rows then some (cr + cc * g.rows) else none

/-- `pixel_to_chip(x, y) = (cc, cr, lc, lr)` (R112). -/
def pixelToChip (x y : Nat) : Nat × Nat × Nat × Nat := (x / 8, y / 8, x % 8, y % 8)

/-- Where a pixel is: chip index, column of the chip, bit of the column (R113). -/
structure PixelAddr where
  chip : Nat
  column : Nat
  bit : Nat
  deriving DecidableEq, Repr

/-- `decode(x, y)` (R113); `none` is `OutOfRange`. Each coordinate is compared with its own limit (R115). -/
def decodePixel (g : Grid) (x y : Nat) : Option PixelAddr :=
  if x ≥ gridW g ∨ y ≥ gridH g then none
  else
    match pixelToChip x y with
    | (cc, cr, lc, lr) => (chipIndex g cc cr).map (fun ci => { chip := ci, column := lc, bit := lr })

/-- `store_addr(ci, lc)` (R114). -/
def storeAddr (ci lc : Nat) : Nat := 8 * ci + lc

/-- `chip_of_index(ci) = (cc, cr)` (R117). -/
def chipOfIndex (g : Grid) (ci : Nat) : Nat × Nat := (ci / g.rows, ci % g.rows)

/-- `pixel_of_bit(a, b)`, the inverse of the decoder (R117). -/
def pixelOfBit (g : Grid) (a b : Nat) : Nat × Nat :=
  match chipOfIndex g (a / 8) with
  | (cc, cr) => (cc * 8 + a % 8, cr * 8 + b)

/-! ### Pixel states -/

/-- `apply(bit, s)` (42_frame_buffer). -/
def applyState (bit : Bool) (st : PixelState) : Bool :=
  match st with
  | .off => false
  | .on => true
  | .invert => !bit

/-- `setbit(v, i, b)` (00_scope R9). -/
def setBit (v : Byte) (i : Nat) (b : Bool) : Byte :=
  if b then v ||| BitVec.twoPow 8 i else v &&& ~~~(BitVec.twoPow 8 i)

/-- FILL_ALL's effect on one storage byte (R155). -/
def fillByte (v : Byte) (st : PixelState) : Byte :=
  match st with
  | .off => 0x00#8
  | .on => 0xFF#8
  | .invert => v ^^^ 0xFF#8

/-- The pixels of FILL_REGION's loop (R153): the part of the rectangle inside the buffer, each once. -/
def regionPixels (g : Grid) (x0 y0 w h : Nat) : List (Nat × Nat) :=
  (List.range' x0 (min (x0 + w) (gridW g) - x0)).flatMap
    (fun x => (List.range' y0 (min (y0 + h) (gridH g) - y0)).map (fun y => (x, y)))

/-! ### Pairs and bursts of the register multiplexer -/

/-- `DIGIT(k)`, the address of column register `k` (R130). -/
def digitAddr (k : Nat) : Byte := BitVec.ofNat 8 (k + 1)

/-- A (register, value) pair: the register byte first (20_memory R53). -/
def pair (reg value : Byte) : List Byte := [reg, value]

/-- `NOOP_PAIR` (R131; log 3). -/
def noopPair : List Byte := pair (regAddr .noop) 0x00#8

/-- The burst that carries `f p` at pair position `p`, for `p` in `0 .. n-1`. -/
def burstOf (n : Nat) (f : Nat → List Byte) : Burst := (List.range n).flatMap f

/-- WRITE_ONE's burst for a chip index below `n` (R133). -/
def writeOneBurst (n i : Nat) (reg : Reg) (value : Byte) : Burst :=
  burstOf n (fun p => if p = n - 1 - i then pair (regAddr reg) value else noopPair)

/-- WRITE_ALL's burst (R135). -/
def writeAllBurst (n : Nat) (reg : Reg) (value : Byte) : Burst :=
  burstOf n (fun _ => pair (regAddr reg) value)

/-- The burst that gives column register `k` of chip `j` the byte `f j` (R137, R171): pair position `p` goes to
chip `n - 1 - p`. -/
def columnBurst (n k : Nat) (f : Nat → Byte) : Burst :=
  burstOf n (fun p => pair (digitAddr k) (f (n - 1 - p)))

/-- `values[j]` of WRITE_COLUMN_ALL (R84). A list shorter than the chain reads as padded with 0x00 (R192; log 11). -/
def valueAt (values : List Byte) (j : Nat) : Byte := values.getD j 0x00#8

/-- A burst the chain has a rule for (10_state R41, R42): `2 * n` bytes, every register byte a register's. -/
def burstLegal (n : Nat) (b : Burst) : Bool :=
  b.length == 2 * n && (List.range n).all (fun p => (regOfAddr (b.getD (2 * p) 0x00#8)).isSome)

/-! ### The boot of the chain (70_reset_and_hazards R223; log 20) -/

/-- The commands of INIT_CHAIN (30_encoding R97), in its order: scan limit, decode mode, display test, intensity,
shutdown. -/
def initCommands (brightness : BitVec 4) : List Instr :=
  [.writeAll .scanLimit 0x07#8, .writeAll .decodeMode 0x00#8, .writeAll .displayTest 0x00#8,
    .writeAll .intensity (brightness.zeroExtend 8), .writeAll .shutdown 0x01#8]

/-- Somewhere among the deliveries the bursts of these commands stand in a row, one burst for each entry. -/
def sentInARow (cs : List Instr) (l : List Sent) : Bool := (l.map Sent.cmd).tails.any cs.isPrefixOf

/-- INIT_CHAIN was sent (R223 step 2): each of its commands sends one burst (41_register_protocol R135). -/
def initSent (brightness : BitVec 4) (l : List Sent) : Bool := sentInARow (initCommands brightness) l

/-- A RENDER was sent (R223 step 3), alone or as the end of CLEAR: the 8 bursts of the command itself (43_renderer
R171), not column registers that WRITE commands wrote. -/
def renderSent (l : List Sent) : Bool := sentInARow (List.replicate 8 .render) l

/-- The bits of a burst on the wire, most significant bit of each byte first (20_memory R55; log 13). -/
def wireBits (b : Burst) : List Bool :=
  b.flatMap (fun v => (List.range 8).map (fun i => v.getLsbD (7 - i)))

end Sys2Proof.Machine
end

