-- ==== Sys2Proof/Machine/Ops.lean ====
section
/-! DEFINITION. The named operations on the state (00_scope R11): cells, MemRead and MemWrite, Respond, Emit with
the chain's latching, refuse and raise, reset, and the command position. -/

namespace Sys2Proof.Machine

/-! ### Cells: a list of (address, byte), addresses rising -/

/-- The byte listed at `a`. -/
def cellsRead (m : List Host.Cell) (a : Nat) : Option Byte :=
  match m with
  | [] => none
  | (k, v) :: rest => if a = k then some v else cellsRead rest a

/-- List `v` at `a`, in address order. -/
def cellsWrite (m : List Host.Cell) (a : Nat) (v : Byte) : List Host.Cell :=
  match m with
  | [] => [(a, v)]
  | (k, w) :: rest =>
    if a < k then (a, v) :: (k, w) :: rest
    else if a = k then (a, v) :: rest
    else (k, w) :: cellsWrite rest a v

/-- List nothing at `a`. -/
def cellsErase (m : List Host.Cell) (a : Nat) : List Host.Cell :=
  match m with
  | [] => []
  | (k, w) :: rest => if a = k then cellsErase rest a else (k, w) :: cellsErase rest a

/-! ### Frame-buffer storage (20_memory R51) -/

/-- What an unlisted storage address reads as: the reset value 0x00 (10_state R25, 70_reset_and_hazards R220). -/
def fbUnlisted : Byte := 0x00#8

/-- The byte a storage list holds at `a`. -/
def fbRead (m : List Host.Cell) (a : Nat) : Byte := (cellsRead m a).getD fbUnlisted

/-- A storage list with `v` at `a`, in canonical form: the unlisted value is not listed (log 14). -/
def fbWrite (m : List Host.Cell) (a : Nat) (v : Byte) : List Host.Cell :=
  if v = fbUnlisted then cellsErase m a else cellsWrite m a v

/-- The canonical form of storage: addresses strictly rising, no entry equal to what an unlisted address reads as. -/
abbrev Memory.wf (m : List Host.Cell) : Prop :=
  m.Pairwise (fun p q => p.1 < q.1) ∧ ∀ c ∈ m, c.2 ≠ fbUnlisted

/-- The canonical form of the chain's list: keys strictly rising (log 7). -/
abbrev Memory.sorted (m : List Host.Cell) : Prop := m.Pairwise (fun p q => p.1 < q.1)

/-- `MemRead(a, 1)`, defined for `a < 8 * N` (R51). -/
def State.memRead (s : State) (a : Nat) : Option Byte :=
  if a < 8 * s.n then some (fbRead s.fb a) else none

/-- `MemWrite(a, 1, v)`, defined for `a < 8 * N` (R51). -/
def State.memWrite (s : State) (a : Nat) (v : Byte) : Option State :=
  if a < 8 * s.n then some { s with fb := fbWrite s.fb a v } else none

/-- The logical pixel `P(x, y)` (10_state R24, R25); `none` outside the buffer. -/
def State.pixel (s : State) (x y : Nat) : Option Bool :=
  (decodePixel s.grid x y).map (fun d => (fbRead s.fb (storeAddr d.chip d.column)).getLsbD d.bit)

/-- SET's effect on one pixel without its `cpos` (R151), which FILL_REGION's loop repeats (R153): a
read-modify-write of the pixel's storage byte; nothing for a pixel outside the buffer. -/
def State.pixelWrite (s : State) (x y : Nat) (st : PixelState) : Option State :=
  match decodePixel s.grid x y with
  | none => some s
  | some d =>
    match s.memRead (storeAddr d.chip d.column) with
    | none => none
    | some v => s.memWrite (storeAddr d.chip d.column) (setBit v d.bit (applyState (v.getLsbD d.bit) st))

/-- SET's effect on each pixel of a list, in its order (R153). -/
def State.pixelsWrite (s : State) (ps : List (Nat × Nat)) (st : PixelState) : Option State :=
  match ps with
  | [] => some s
  | p :: rest =>
    match s.pixelWrite p.1 p.2 st with
    | none => none
    | some t => t.pixelsWrite rest st

/-- FILL_ALL's effect on each storage byte of a list of addresses (R155). -/
def State.fillBytes (s : State) (as : List Nat) (st : PixelState) : Option State :=
  match as with
  | [] => some s
  | a :: rest =>
    match s.memRead a with
    | none => none
    | some v =>
      match s.memWrite a (fillByte v st) with
      | none => none
      | some t => t.fillBytes rest st

/-- `col_byte(ci, k)` (43_renderer R170). -/
def State.colByte (s : State) (ci k : Nat) : Option Byte := s.memRead (storeAddr ci k)

/-- Every answer of a list, if every one is there. -/
def allSome {α : Type} (l : List (Option α)) : Option (List α) :=
  match l with
  | [] => some []
  | none :: _ => none
  | some a :: rest => (allSome rest).map (a :: ·)

/-- RENDER's burst for column register `k` (R171): from the last chip in the chain to the first. -/
def State.renderBurst (s : State) (k : Nat) : Option Burst :=
  (allSome ((List.range s.n).map (fun p => (s.colByte (s.n - 1 - p) k).map (pair (digitAddr k))))).map List.flatten

/-- RENDER's 8 bursts, column registers in ascending order, from one snapshot (R171, 20_memory R64). -/
def State.renderBursts (s : State) : Option (List Burst) := allSome ((List.range 8).map s.renderBurst)

/-! ### Command position and responses -/

/-- `cpos <- cpos + k` (10_state R35). -/
def State.advance (s : State) (k : Nat) : State := { s with cpos := s.cpos + k }

/-- `Respond(b)` (10_state R32). -/
def State.respond (s : State) (b : Bool) : State := { s with resp := s.resp ++ [b] }

/-- End a command that only touches storage: the next state past the command, or the named fault of an access
where no storage is. -/
def finish (r : Option State) (k : Nat) : Host.Outcome State Fault Refusal :=
  match r with
  | some t => .next (t.advance k)
  | none => .fault .storageAddress

/-! ### The chain view (10_state R40 to R43) -/

/-- The key of register `r` of chip `k` in the chain's list (log 7). -/
def chainKey (k : Nat) (r : Reg) : Nat := 16 * k + (regAddr r).toNat

/-- What register `r` of chip `k` holds while it has latched nothing since the last draw: `CHAIN_POWERUP`, or
`CHAIN_AFTER_FAULT` of the last transport failure (R40, 60_exceptions R193; log 5, log 6). -/
def chainDrawn (epoch k : Nat) (r : Reg) : Byte :=
  match epoch with
  | 0 => Config.chainPowerUp k r
  | f + 1 => Config.chainAfterFault f k r

/-- `CHAIN[k][r]` (R40): for the chips of the chain and the 13 registers that are not NOOP. -/
def State.chainRead (s : State) (k : Nat) (r : Reg) : Option Byte :=
  if k < s.n ∧ r ≠ .noop then some ((cellsRead s.chain (chainKey k r)).getD (chainDrawn s.chainEpoch k r))
  else none

/-- What chip `k` of `n` latches from a burst (R41): the pair at position `n - 1 - k`; a no-op pair changes
nothing (R42). -/
def latchChip (n : Nat) (b : Burst) (m : List Host.Cell) (k : Nat) : List Host.Cell :=
  match regOfAddr (b.getD (2 * (n - 1 - k)) 0x00#8) with
  | none => m
  | some .noop => m
  | some r => cellsWrite m (chainKey k r) (b.getD (2 * (n - 1 - k) + 1) 0x00#8)

/-- What the whole chain latches from a burst at its chip-select release (R41). -/
def latchBurst (n : Nat) (b : Burst) (m : List Host.Cell) : List Host.Cell :=
  (List.range n).foldl (latchChip n b) m

/-- The chips are initialized: the chain has latched INIT_CHAIN since its registers were last a draw
(70_reset_and_hazards R223 step 2; log 20). -/
def State.initialized (s : State) : Bool := initSent s.brightness s.delivered

/-- The chain has latched a RENDER since its registers were last a draw (R223 step 3; log 20). -/
def State.rendered (s : State) : Bool := renderSent s.delivered

/-- The display view means something: the chain has latched both INIT_CHAIN and a RENDER since its registers were
last a draw (70_reset_and_hazards R223, R224, U10; in either order, as vector RND3 has them: log 20). -/
def State.booted (s : State) : Bool := s.initialized && s.rendered

/-- The display view (R43): whether the LED of pixel `(x, y)` is lit. Before the boot of R223 it is any value
(R224, R231, U10; log 20); `none` outside the buffer. -/
def State.displayLit (s : State) (x y : Nat) : Option Bool :=
  match decodePixel s.grid x y with
  | none => none
  | some d =>
    if s.booted then (s.chainRead d.chip (.digit (Fin.ofNat 8 d.column))).map (fun v => v.getLsbD d.bit)
    else some (Config.displayBeforeBoot s.chainEpoch s.delivered.length x y)

/-! ### Emit (10_state R30) -/

/-- The `TRANSPORT_OK` draw number `j` from here: an answer the transport has fixed, or else a free value (log 4). -/
def State.answer (s : State) (j : Nat) : Bool :=
  match s.answers[j]? with
  | some ok => ok
  | none => Config.transportOk (s.draws + (j - s.answers.length))

/-- The state after `k` draws. -/
def State.afterDraws (s : State) (k : Nat) : State :=
  { s with answers := s.answers.drop k, draws := s.draws + (k - s.answers.length) }

/-- A burst of command `i` that the transport has taken: appended to OUT and latched by the chain (R30, R41,
20_memory R65). -/
def State.deliver (s : State) (i : Instr) (b : Burst) : State :=
  { s with out := s.out ++ [b], chain := latchBurst s.n b s.chain, delivered := s.delivered ++ [⟨i, b⟩] }

/-- `raise Fault(TransportFailure, B)` (60_exceptions R193): FAULT and HALT_INFO, `cpos` not advanced, B not in
OUT, and every register of the chain a new draw (log 6), so that the chips are no longer booted (log 20). -/
def State.raiseFault (s : State) (b : Burst) : State :=
  { s.setFault ⟨transportFailureCode, s.cpos, .burst b⟩ with
    chain := [], chainEpoch := s.chainEpoch + 1, delivered := [] }

/-- `Emit` of each burst of command `i` in order, and then `cpos <- cpos + k`. Each Emit takes its draw first; the
first failing burst ends the command (R30, 60_exceptions R197). -/
def State.emitLoop (s : State) (i : Instr) (bs : List Burst) (k : Nat) : State :=
  match bs with
  | [] => s.advance k
  | b :: rest =>
    match s.answer 0 with
    | true => ((s.afterDraws 1).deliver i b).emitLoop i rest k
    | false => (s.afterDraws 1).raiseFault b

/-- End command `i` with its bursts: a burst the chain has no rule for is refused before any is emitted (R42; never
the case, R31, R132). -/
def emitAll (s : State) (i : Instr) (bs : List Burst) (k : Nat) : Host.Outcome State Fault Refusal :=
  if bs.all (burstLegal s.n) then .next (s.emitLoop i bs k) else .refused .illegalBurst

/-! ### Refusal and reset -/

/-- `refuse(reason)` (60_exceptions R191): REFUSED and HALT_INFO, and nothing else changes. -/
def State.refuse (s : State) (r : RefuseReason) : State :=
  s.setRefused ⟨reasonCode r, s.cpos,
    match s.cmd[s.cpos]? with
    | some w => .header w
    | none => .nothing⟩

/-- Reset by the host (70_reset_and_hazards R220): the block as after power-up with the run's configuration
argument; the chain, the transport and the host go on as they are, with `ws` on the command port (log 8). -/
def State.resetBlock (s : State) (ws : List Word) : State :=
  { State.powerUp s.cfgArg with
    cmd := ws, host := s.host, answers := s.answers, draws := s.draws
    chain := s.chain, chainEpoch := s.chainEpoch, delivered := s.delivered }

/-- The host presents words on the command port (10_state R33, 60_exceptions R202). -/
def State.present (s : State) (ws : List Word) : State := { s with cmd := s.cmd ++ ws }

end Sys2Proof.Machine
end

