-- ==== Sys2Proof/Machine/FrameBuffer.lean ====
section
/-! DEFINITION. The meanings of the pixel commands GET, SET, FILL_REGION and FILL_ALL (42_frame_buffer). -/

namespace Sys2Proof.Machine

/-- GET x, y (R150): responds the pixel's bit, 0 outside the buffer (D9; log 17). -/
def execGet (x y : Word) (s : State) : Host.Outcome State Fault Refusal :=
  match decodePixel s.grid x.toNat y.toNat with
  | none => .next ((s.respond false).advance 3)
  | some d =>
    match s.memRead (storeAddr d.chip d.column) with
    | none => .fault .storageAddress
    | some v => .next ((s.respond (v.getLsbD d.bit)).advance 3)

/-- SET x, y, state (R151, R152). -/
def execSet (st : PixelState) (x y : Word) (s : State) : Host.Outcome State Fault Refusal :=
  finish (s.pixelWrite x.toNat y.toNat st) 3

/-- FILL_REGION x0, y0, w, h, state (R153): SET on each pixel of the clipped rectangle, without wrap. -/
def execFillRegion (st : PixelState) (x0 y0 w h : Word) (s : State) : Host.Outcome State Fault Refusal :=
  finish (s.pixelsWrite (regionPixels s.grid x0.toNat y0.toNat w.toNat h.toNat) st) 5

/-- FILL_ALL state (R155). -/
def execFillAll (st : PixelState) (s : State) : Host.Outcome State Fault Refusal :=
  finish (s.fillBytes (List.range (8 * s.n)) st) 1

end Sys2Proof.Machine
end

