-- ==== Sys2Proof/Machine/RegisterProtocol.lean ====
section
/-! DEFINITION. The meanings of the register multiplexer's commands WRITE_ONE, WRITE_ALL and WRITE_COLUMN_ALL
(41_register_protocol). -/

namespace Sys2Proof.Machine

/-- WRITE_ONE chip_index, register, value (R133): one burst; none for a chip index outside the chain (R134). -/
def execWriteOne (reg : Reg) (value : Byte) (chip : Word) (s : State) : Host.Outcome State Fault Refusal :=
  emitAll s (.writeOne reg value chip) (if s.n ≤ chip.toNat then [] else [writeOneBurst s.n chip.toNat reg value]) 2

/-- WRITE_ALL register, value (R135). -/
def execWriteAll (reg : Reg) (value : Byte) (s : State) : Host.Outcome State Fault Refusal :=
  emitAll s (.writeAll reg value) [writeAllBurst s.n reg value] 1

/-- WRITE_COLUMN_ALL column, values (R137): one burst; none for a column above 7, whose payload is consumed all
the same (R139). -/
def execWriteColumnAll (column : Byte) (values : List Byte) (s : State) : Host.Outcome State Fault Refusal :=
  emitAll s (.writeColumnAll column values)
    (if column.toNat > 7 then [] else [columnBurst s.n column.toNat (valueAt values)]) (1 + s.n)

end Sys2Proof.Machine
end

