-- ==== Sys2Proof/Machine/Renderer.lean ====
section
/-! DEFINITION. The meaning of RENDER (43_renderer). -/

namespace Sys2Proof.Machine

/-- RENDER (R171): 8 column-register bursts built from the buffer as the step finds it. -/
def execRender (s : State) : Host.Outcome State Fault Refusal :=
  match s.renderBursts with
  | some bs => emitAll s .render bs 1
  | none => .fault .storageAddress

end Sys2Proof.Machine
end

