-- ==== Sys2Proof/Machine/Dispatch.lean ====
section
/-! DEFINITION. One arm per command: the meaning it calls. -/

namespace Sys2Proof.Machine

def exec (i : Instr) (s : State) : Host.Outcome State Fault Refusal :=
  match i with
  | .get x y => Sys2Proof.Machine.execGet x y s
  | .set st x y => Sys2Proof.Machine.execSet st x y s
  | .fillRegion st x0 y0 w h => Sys2Proof.Machine.execFillRegion st x0 y0 w h s
  | .fillAll st => Sys2Proof.Machine.execFillAll st s
  | .render => Sys2Proof.Machine.execRender s
  | .writeOne reg value chip => Sys2Proof.Machine.execWriteOne reg value chip s
  | .writeAll reg value => Sys2Proof.Machine.execWriteAll reg value s
  | .writeColumnAll column values => Sys2Proof.Machine.execWriteColumnAll column values s

end Sys2Proof.Machine
end

