-- ==== Sys2Proof/Machine/Command.lean ====
section
/-! DEFINITION. Fetching and running one command (30_encoding R88, 10_state R36), and the host's actions
(60_exceptions R202). -/

namespace Sys2Proof.Machine

/-- The words of CMD from `cpos` on. -/
def State.pending (s : State) : List Word := s.cmd.drop s.cpos

/-- The decode of the command at `cpos` (30_encoding R88). -/
def State.fetch (s : State) : Decoded := decode s.n s.pending

/-- One command step (10_state R36). A running block runs the command at `cpos`, or refuses it, or waits for its
words (a step that changes nothing, log 10). A halted block takes no step (60_exceptions R198). -/
def commandStep (s : State) : Host.Outcome State Fault Refusal :=
  match s.status with
  | .haltedRefused => .refused .haltedRefused
  | .haltedFault => .fault .haltedFault
  | .running =>
    match s.fetch with
    | .command i => exec i s
    | .wait => .next s
    | .refuse r => .next (s.refuse r)

/-- One action of the host, or the step it grants the block (log 2). -/
def hostStep (a : HostAction) (s : State) : Host.Outcome State Fault Refusal :=
  match a with
  | .present ws => .next (s.present ws)
  | .reset ws => .next (s.resetBlock ws)
  | .grant => commandStep s

/-- `s` with words laid into CMD from `cpos` on, over the words there (words before `cpos` that were never
presented are 0), and no action of the host before the next command step. -/
def State.placeWords (s : State) (ws : List Word) : State :=
  { s with
    host := []
    cmd := s.cmd.take s.cpos ++ List.replicate (s.cpos - s.cmd.length) 0#32 ++ ws ++ s.cmd.drop (s.cpos + ws.length) }

end Sys2Proof.Machine
end

