-- ==== Sys2Proof/Machine/Step.lean ====
section
/-! DEFINITION. One step: the host's next pending action if it has one, else a command step. -/

namespace Sys2Proof.Machine

/-- One step of the machine (00_scope R6, 10_state R36; log 2). -/
def step (s : State) : Host.Outcome State Fault Refusal :=
  match s.host with
  | [] => commandStep s
  | a :: rest => hostStep a { s with host := rest }

/-- `s` with the instruction of the table's bits `w` stored where the next command step fetches. -/
def State.withFetchWord (s : State) (nbits w : Nat) : State := s.placeWords (tableWords s.n nbits w)

end Sys2Proof.Machine
end

