-- ==== Sys2Proof/Machine/Assembler.lean ====
section
/-! DEFINITION. The pseudo-instructions (30_encoding R94 to R97) and the assembler (R92, R93): from a line of text
to the words a host presents. Not a part of the block: it says what a host means by a text. -/

namespace Sys2Proof.Machine

/-! ### Pseudo-instructions -/

/-- The pseudo-instructions (R94 to R97). -/
inductive Pseudo where
  | clear
  | clearBuffer
  | pixelOn (x y : Word)
  | pixelOff (x y : Word)
  | pixelToggle (x y : Word)
  | initChain
  deriving DecidableEq, Repr

/-- The commands a pseudo-instruction expands to (R94 to R97); INIT_CHAIN reads BRIGHTNESS (10_state R22). -/
def expandPseudo (brightness : BitVec 4) (p : Pseudo) : List Instr :=
  match p with
  | .clear => [.fillAll .off, .render]
  | .clearBuffer => [.fillAll .off]
  | .pixelOn x y => [.set .on x y]
  | .pixelOff x y => [.set .off x y]
  | .pixelToggle x y => [.set .invert x y]
  | .initChain => initCommands brightness

/-! ### Lines with natural operands -/

/-- A line of the assembler's language with its operands read, before they are fitted into fields (R92). -/
inductive AsmLine where
  | blank
  | get (x y : Nat)
  | set (x y : Nat) (st : PixelState)
  | fillRegion (x0 y0 w h : Nat) (st : PixelState)
  | fillAll (st : PixelState)
  | render
  | writeOne (chip : Nat) (reg : Reg) (value : Nat)
  | writeAll (reg : Reg) (value : Nat)
  | writeColumnAll (column : Nat) (values : List Nat)
  | clear
  | clearBuffer
  | pixelOn (x y : Nat)
  | pixelOff (x y : Nat)
  | pixelToggle (x y : Nat)
  | initChain
  deriving DecidableEq, Repr

/-- A natural in a 32-bit field; one that does not fit is rejected (R92). -/
def fitWord (v : Nat) : Option Word := if v < 2 ^ 32 then some (BitVec.ofNat 32 v) else none

/-- A natural in an 8-bit field; one that does not fit is rejected (R92). -/
def fitByte (v : Nat) : Option Byte := if v < 2 ^ 8 then some (BitVec.ofNat 8 v) else none

/-- Each of a list of naturals in an 8-bit field. -/
def fitBytes (vs : List Nat) : Option (List Byte) :=
  match vs with
  | [] => some []
  | v :: rest => (fitByte v).bind (fun b => (fitBytes rest).map (b :: ·))

/-- A value list padded with 0x00 or truncated to `n` values (60_exceptions R192, 90_conflicts C9). -/
def padValues (n : Nat) (vs : List Byte) : List Byte := (List.range n).map (valueAt vs)

/-- Two coordinates in their fields. -/
def fitPoint (x y : Nat) : Option (Word × Word) := (fitWord x).bind (fun a => (fitWord y).map (fun b => (a, b)))

/-- The commands of a line for `n` chips and a default brightness (R92, R94 to R97); `none`: rejected. A value list
is truncated to `n` values before any value is fitted into its field (60_exceptions R192: before encoding), so a value
past the `n`-th rejects nothing, whatever it is (DEDUCED; log 21). -/
def assembleLine (n : Nat) (brightness : BitVec 4) (l : AsmLine) : Option (List Instr) :=
  match l with
  | .blank => some []
  | .get x y => (fitPoint x y).map (fun p => [.get p.1 p.2])
  | .set x y st => (fitPoint x y).map (fun p => [.set st p.1 p.2])
  | .fillRegion x0 y0 w h st =>
    (fitPoint x0 y0).bind (fun p => (fitPoint w h).map (fun q => [.fillRegion st p.1 p.2 q.1 q.2]))
  | .fillAll st => some [.fillAll st]
  | .render => some [.render]
  | .writeOne chip reg value => (fitWord chip).bind (fun i => (fitByte value).map (fun v => [.writeOne reg v i]))
  | .writeAll reg value => (fitByte value).map (fun v => [.writeAll reg v])
  | .writeColumnAll column values =>
    (fitByte column).bind (fun c => (fitBytes (values.take n)).map (fun vs => [.writeColumnAll c (padValues n vs)]))
  | .clear => some (expandPseudo brightness .clear)
  | .clearBuffer => some (expandPseudo brightness .clearBuffer)
  | .pixelOn x y => (fitPoint x y).map (fun p => expandPseudo brightness (.pixelOn p.1 p.2))
  | .pixelOff x y => (fitPoint x y).map (fun p => expandPseudo brightness (.pixelOff p.1 p.2))
  | .pixelToggle x y => (fitPoint x y).map (fun p => expandPseudo brightness (.pixelToggle p.1 p.2))
  | .initChain => some (expandPseudo brightness .initChain)

/-! ### Text (R92; log 12) -/

/-- A blank of the text: a space or a tab (log 12). -/
def isBlank (c : Char) : Bool := c == ' ' || c == '\t'

/-- A text without the blanks at its two ends. -/
def trimBlanks (cs : List Char) : List Char :=
  ((cs.dropWhile isBlank).reverse.dropWhile isBlank).reverse

/-- A line without its comment: `;` starts one (R92). -/
def stripComment (cs : List Char) : List Char := cs.takeWhile (fun c => c != ';')

/-- The pieces between the commas of a text. -/
def splitCommas (cs : List Char) : List (List Char) :=
  match cs with
  | [] => [[]]
  | c :: rest =>
    if c == ',' then [] :: splitCommas rest
    else
      match splitCommas rest with
      | [] => [[c]]
      | piece :: pieces => (c :: piece) :: pieces

/-- The value of a digit in base 10 or 16; hexadecimal letters of either case (log 12). -/
def digitValue (base : Nat) (c : Char) : Option Nat :=
  let v := c.toNat
  let d :=
    if 48 ≤ v ∧ v ≤ 57 then v - 48
    else if 65 ≤ v ∧ v ≤ 70 then v - 55
    else if 97 ≤ v ∧ v ≤ 102 then v - 87
    else 16
  if d < base then some d else none

/-- The number a digit list writes, after the digits already read. -/
def digitsValue (base acc : Nat) (cs : List Char) : Option Nat :=
  match cs with
  | [] => some acc
  | c :: rest => (digitValue base c).bind (fun d => digitsValue base (acc * base + d) rest)

/-- A number: decimal or `0x` hexadecimal (R92), with at least one digit. -/
def parseNumber (cs : List Char) : Option Nat :=
  match cs with
  | [] => none
  | '0' :: 'x' :: [] => none
  | '0' :: 'x' :: rest => digitsValue 16 0 rest
  | _ => digitsValue 10 0 cs

/-- Numbers, each of a list. -/
def parseNumbers (l : List (List Char)) : Option (List Nat) :=
  match l with
  | [] => some []
  | cs :: rest => (parseNumber cs).bind (fun v => (parseNumbers rest).map (v :: ·))

/-- A state operand: `ON`, `OFF` or `INVERT` (R92). -/
def parseState (cs : List Char) : Option PixelState :=
  if cs = "OFF".toList then some .off
  else if cs = "ON".toList then some .on
  else if cs = "INVERT".toList then some .invert
  else none

/-- The register names of 41_register_protocol R130. -/
def registerNames : List (String × Reg) :=
  [("NOOP", .noop), ("DIGIT0", .digit 0), ("DIGIT1", .digit 1), ("DIGIT2", .digit 2), ("DIGIT3", .digit 3),
    ("DIGIT4", .digit 4), ("DIGIT5", .digit 5), ("DIGIT6", .digit 6), ("DIGIT7", .digit 7),
    ("DECODE_MODE", .decodeMode), ("INTENSITY", .intensity), ("SCAN_LIMIT", .scanLimit),
    ("SHUTDOWN", .shutdown), ("DISPLAY_TEST", .displayTest)]

/-- A register operand: a name, or the number of a legal register code (R92). -/
def parseRegister (cs : List Char) : Option Reg :=
  match registerNames.find? (fun p => p.1.toList == cs) with
  | some p => some p.2
  | none => (parseNumber cs).bind (fun v => (fitByte v).bind regOfAddr)

/-- Two numbers, or a rejection. -/
def parsePoint (ops : List (List Char)) (k : Nat → Nat → AsmLine) : Option AsmLine :=
  match ops with
  | [x, y] => (parseNumber x).bind (fun a => (parseNumber y).map (fun b => k a b))
  | _ => none

/-- A line of a mnemonic and its operands (R92, R94 to R97). -/
def parseOperands (m : List Char) (ops : List (List Char)) : Option AsmLine :=
  if m = "GET".toList then parsePoint ops .get
  else if m = "SET".toList then
    match ops with
    | [x, y, st] => (parseState st).bind (fun t => parsePoint [x, y] (fun a b => .set a b t))
    | _ => none
  else if m = "FILL_REGION".toList then
    match ops with
    | [x0, y0, w, h, st] =>
      (parseState st).bind (fun t =>
        (parseNumbers [x0, y0, w, h]).bind (fun vs =>
          match vs with
          | [a, b, c, d] => some (.fillRegion a b c d t)
          | _ => none))
    | _ => none
  else if m = "FILL_ALL".toList then
    match ops with
    | [st] => (parseState st).map .fillAll
    | _ => none
  else if m = "WRITE_ONE".toList then
    match ops with
    | [i, r, v] =>
      (parseNumber i).bind (fun a => (parseRegister r).bind (fun b => (parseNumber v).map (fun c => .writeOne a b c)))
    | _ => none
  else if m = "WRITE_ALL".toList then
    match ops with
    | [r, v] => (parseRegister r).bind (fun b => (parseNumber v).map (fun c => .writeAll b c))
    | _ => none
  else if m = "WRITE_COLUMN_ALL".toList then
    match ops with
    | c :: vs => (parseNumber c).bind (fun a => (parseNumbers vs).map (fun l => .writeColumnAll a l))
    | _ => none
  else if m = "PIXEL_ON".toList then parsePoint ops .pixelOn
  else if m = "PIXEL_OFF".toList then parsePoint ops .pixelOff
  else if m = "PIXEL_TOGGLE".toList then parsePoint ops .pixelToggle
  else if ops ≠ [] then none
  else if m = "RENDER".toList then some .render
  else if m = "CLEAR".toList then some .clear
  else if m = "CLEAR_BUFFER".toList then some .clearBuffer
  else if m = "INIT_CHAIN".toList then some .initChain
  else none

/-- A line of text (R92): a mnemonic followed by comma-separated operands, or nothing but blanks and a comment. -/
def parseLine (cs : List Char) : Option AsmLine :=
  let body := trimBlanks (stripComment cs)
  let m := body.takeWhile (fun c => !isBlank c)
  let ops := trimBlanks (body.drop m.length)
  if m = [] then some .blank
  else parseOperands m (if ops = [] then [] else (splitCommas ops).map trimBlanks)

/-- The words of a text, line by line (R92, R93); `none`: a line is rejected. -/
def assembleText (n : Nat) (brightness : BitVec 4) (lines : List String) : Option (List Word) :=
  match lines with
  | [] => some []
  | l :: rest =>
    (parseLine l.toList).bind (fun a =>
      (assembleLine n brightness a).bind (fun is =>
        (assembleText n brightness rest).map (fun ws => is.flatMap encode ++ ws)))

end Sys2Proof.Machine
end

