-- ==== Sys2Proof/Safety.lean ====
section
/-! DEFINITION. What counts as a safe step, the outcomes of a command in the terms the claims use, runs of several
commands, and the invariant of the machine's states. -/

namespace Sys2Proof.Machine

/-- The block takes commands (10_state R36). -/
def Running (s : State) : Prop := s.status = .running

/-- A step that leaves the block running: neither refused nor faulted, and not stopped. -/
def SafeStep (s : State) : Prop := ∃ t, step s = .next t ∧ Running t

/-- The bursts a command asks the transport for, in order (41_register_protocol R133, R135, R137; 43_renderer R171):
the byte lists as those rules write them. -/
def askedBursts (s : State) (i : Instr) : List Burst :=
  match i with
  | .get _ _ => []
  | .set _ _ _ => []
  | .fillRegion _ _ _ _ _ => []
  | .fillAll _ => []
  | .render =>
    (List.range 8).map (fun k =>
      (List.range s.n).flatMap (fun p => [BitVec.ofNat 8 (k + 1), fbRead s.fb (8 * (s.n - 1 - p) + k)]))
  | .writeOne reg value chip =>
    if chip.toNat < s.n then
      [(List.replicate (s.n - 1 - chip.toNat) [0x00#8, 0x00#8]).flatten ++ [regAddr reg, value]
        ++ (List.replicate chip.toNat [0x00#8, 0x00#8]).flatten]
    else []
  | .writeAll reg value => [(List.replicate s.n [regAddr reg, value]).flatten]
  | .writeColumnAll column values =>
    if column.toNat ≤ 7 then
      [(List.range s.n).flatMap (fun p => [column + 1#8, values.getD (s.n - 1 - p) 0x00#8])]
    else []

/-- The next `k` draws of TRANSPORT_OK are all true (10_state R30). -/
def TransportAccepts (s : State) (k : Nat) : Prop := ∀ j < k, s.answer j = true

/-- Draw number `k` from here is the first false one. -/
def TransportFailsAt (s : State) (k : Nat) : Prop := TransportAccepts s k ∧ s.answer k = false

/-- `t` is `s` after command `i` of `len` words whose bursts `bs` the transport all took: OUT has them, each took one
draw, the chain has latched them, `cpos` is past the command, and nothing of the block but these changed. What the
chain holds is said by `State.chainRead`. -/
def Emitted (s : State) (i : Instr) (bs : List Burst) (len : Nat) (t : State) : Prop :=
  t = { s with
    out := s.out ++ bs
    cpos := s.cpos + len
    answers := s.answers.drop bs.length
    draws := s.draws + (bs.length - s.answers.length)
    chain := t.chain
    delivered := s.delivered ++ bs.map (fun b => ⟨i, b⟩) }

/-- `t` is `s` after a command that lost burst `b` to a transport failure, with the bursts `sent` already in OUT
(60_exceptions R193): FAULT and HALT_INFO are set, `cpos` and everything else of the block are as before, and every
register of the chain is a new draw. -/
def TransportFailed (s : State) (sent : List Burst) (b : Burst) (t : State) : Prop :=
  t = { s with
    fault := true
    haltInfo := some ⟨16#8, s.cpos, .burst b⟩
    out := s.out ++ sent
    answers := s.answers.drop (sent.length + 1)
    draws := s.draws + (sent.length + 1 - s.answers.length)
    chain := []
    chainEpoch := s.chainEpoch + 1
    delivered := [] }

/-- Several commands, one after another, stopping where one does not answer a next state or halts the block. -/
def runCommands (is : List Instr) (s : State) : Host.Outcome State Fault Refusal :=
  match is with
  | [] => .next s
  | i :: rest =>
    match exec i s with
    | .next t =>
      match t.status with
      | .running => runCommands rest t
      | .haltedRefused => .refused .haltedRefused
      | .haltedFault => .fault .haltedFault
    | .fault f => .fault f
    | .refused r => .refused r

/-- The commands that write the frame buffer (20_memory R59). -/
def writesBuffer (i : Instr) : Bool :=
  match i with
  | .set _ _ _ => true
  | .fillRegion _ _ _ _ _ => true
  | .fillAll _ => true
  | .get _ _ => false
  | .render => false
  | .writeOne _ _ _ => false
  | .writeAll _ _ => false
  | .writeColumnAll _ _ => false

/-- The pixel commands (42_frame_buffer). -/
def isPixel (i : Instr) : Bool :=
  match i with
  | .get _ _ => true
  | .set _ _ _ => true
  | .fillRegion _ _ _ _ _ => true
  | .fillAll _ => true
  | .render => false
  | .writeOne _ _ _ => false
  | .writeAll _ _ => false
  | .writeColumnAll _ _ => false

/-- The invariant of the machine: it holds after power-up and every step keeps it. -/
structure Invariant (s : State) : Prop where
  /-- Storage is in canonical form (log 14). -/
  storageWf : Memory.wf s.fb
  /-- Storage holds no byte outside `0 .. 8N-1` (20_memory R51). -/
  storageBound : ∀ c ∈ s.fb, c.1 < 8 * s.n
  /-- The chain's list is in canonical form (log 7). -/
  chainSorted : Memory.sorted s.chain
  /-- The chain's list holds registers of the chain's chips only, and no NOOP (10_state R40, R42). -/
  chainKeys : ∀ c ∈ s.chain, ∃ k r, k < s.n ∧ r ≠ Reg.noop ∧ c.1 = chainKey k r
  /-- Every burst in OUT is `2 * N` bytes of pairs of named registers (10_state R31, 41_register_protocol R132). -/
  bursts : ∀ b ∈ s.out, burstLegal s.n b = true
  /-- Every burst the chain has latched is such a burst too (10_state R41, R42). -/
  latched : ∀ d ∈ s.delivered, burstLegal s.n d.burst = true
  /-- The configuration registers hold what reset loaded (10_state R20, R22). -/
  config : s.cols = loadCols s.cfgArg ∧ s.rows = loadRows s.cfgArg ∧ s.brightness = loadBrightness s.cfgArg
  /-- Under an illegal configuration the block is refused (70_reset_and_hazards R221). -/
  illegalRefused : configLegal s.cfgArg = false → s.refused = true
  /-- The block is halted by one event at most (10_state R28). -/
  oneHalt : ¬(s.refused = true ∧ s.fault = true)
  /-- HALT_INFO is written exactly when the block is halted (10_state R28). -/
  haltRecorded : s.haltInfo.isSome = (s.refused || s.fault)
  /-- A halted block's `cpos` is the one recorded (10_state R35, R28). -/
  haltPosition : ∀ i, s.haltInfo = some i → i.cpos = s.cpos
  /-- `cpos` never runs ahead of the words presented (10_state R35, R36). -/
  position : s.cpos ≤ s.cmd.length

/-- What the host and the transport may start a run with: any configuration argument, any words, any schedule of
host actions, any answers fixed (60_exceptions R202). -/
def State.start (arg : ConfigArg) (cmd : List Word) (host : List HostAction) (answers : List Bool) : State :=
  { State.powerUp arg with cmd := cmd, host := host, answers := answers }

end Sys2Proof.Machine
end

