-- ==== Sys2Proof/Certificates/Slice0/Obligations.lean ====
section
/-! DEFINITION. The statements about the model. Each docstring names the rule of spec/ it formalises. -/

open Sys2Proof Sys2Proof.Machine

/-! ### The codec (30_encoding) -/

/-- 30_encoding R80 to R88, R93: for every command that is well formed for a chain, decoding its words (whatever
follows them) gives the command back, with every operand at every value. -/
def Obligations.RoundTripDecodesEncoded : Prop :=
  ∀ (n : Nat) (i : Instr) (rest : List Word), i.wellFormed n = true → decode n (encode i ++ rest) = .command i

/-- 30_encoding R80 to R89: each command has exactly one encoding. Words that decode to a command are that command's
own words, and the command is well formed for the chain. -/
def Obligations.DecodedWordsAreEncoded : Prop :=
  ∀ (n : Nat) (ws : List Word) (i : Instr), decode n ws = .command i →
    i.wellFormed n = true ∧ ∃ rest, ws = encode i ++ rest

/-- 30_encoding R98: the table of encoded forms, each decoding to its command (N = 3 where the table says so), and
the refused words. -/
def Obligations.SpecEncodingTable : Prop :=
  decode 1 [0x02010000#32, 0x00000000#32, 0x00000000#32] = .command (.set .on 0#32 0#32) ∧
  decode 1 [0x02020000#32, 0x00000004#32, 0x00000004#32] = .command (.set .invert 4#32 4#32) ∧
  decode 1 [0x01000000#32, 0x00000002#32, 0x00000014#32] = .command (.get 2#32 20#32) ∧
  decode 1 [0x03010000#32, 0x00000004#32, 0x00000004#32, 0x00000008#32, 0x00000008#32]
    = .command (.fillRegion .on 4#32 4#32 8#32 8#32) ∧
  decode 1 [0x04000000#32] = .command (.fillAll .off) ∧
  decode 1 [0x04020000#32] = .command (.fillAll .invert) ∧
  decode 1 [0x05000000#32] = .command .render ∧
  decode 1 [0x060A0500#32, 0x00000000#32] = .command (.writeOne .intensity 0x05#8 0#32) ∧
  decode 1 [0x06018100#32, 0x00000000#32] = .command (.writeOne (.digit 0) 0x81#8 0#32) ∧
  decode 1 [0x070C0100#32] = .command (.writeAll .shutdown 0x01#8) ∧
  decode 3 [0x08020000#32, 0x000000AA#32, 0x000000BB#32, 0x000000CC#32]
    = .command (.writeColumnAll 2#8 [0xAA#8, 0xBB#8, 0xCC#8]) ∧
  decode 1 [0x00000000#32] = .refuse .reservedOpcode ∧
  decode 1 [0x09000000#32] = .refuse .reservedOpcode ∧
  decode 1 [0x05000001#32] = .refuse .reservedField ∧
  decode 1 [0x01010000#32] = .refuse .reservedField ∧
  decode 1 [0x04000100#32] = .refuse .reservedField ∧
  decode 1 [0x02030000#32] = .refuse .reservedState ∧
  decode 1 [0x070D0000#32] = .refuse .reservedRegister ∧
  decode 1 [0x08000000#32, 0x00000100#32] = .refuse .reservedPayload

/-- 30_encoding R88, R89: which words are refused, and for which reason: the first check of R88's order that applies.
That reserved words are refused and in which order they are checked are the spec's own decisions (D15, D33; log 17).
Each reason is given exactly when it applies, so no other words are refused. -/
def Obligations.ReservedEncodingsRefused : Prop :=
  ∀ (n : Nat) (h : Word) (rest : List Word),
    let op := h.extractLsb 31 24
    let sub := h.extractLsb 23 16
    let val := h.extractLsb 15 8
    let rsv := h.extractLsb 7 0
    let legal := 0x01#8 ≤ op ∧ op ≤ 0x08#8
    let field := rsv ≠ 0#8 ∨ ((op = 0x01#8 ∨ op = 0x05#8) ∧ sub ≠ 0#8) ∨ (¬(op = 0x06#8 ∨ op = 0x07#8) ∧ val ≠ 0#8)
    (decode n (h :: rest) = .refuse .reservedOpcode ↔ op = 0x00#8 ∨ 0x09#8 ≤ op) ∧
    (decode n (h :: rest) = .refuse .reservedField ↔ legal ∧ field) ∧
    (decode n (h :: rest) = .refuse .reservedState ↔
      ¬field ∧ (op = 0x02#8 ∨ op = 0x03#8 ∨ op = 0x04#8) ∧ 0x03#8 ≤ sub) ∧
    (decode n (h :: rest) = .refuse .reservedRegister ↔
      ¬field ∧ (op = 0x06#8 ∨ op = 0x07#8) ∧ (sub = 0x0D#8 ∨ sub = 0x0E#8 ∨ 0x10#8 ≤ sub)) ∧
    (decode n (h :: rest) = .refuse .reservedPayload ↔
      ¬field ∧ op = 0x08#8 ∧ n ≤ rest.length ∧ ∃ w ∈ rest.take n, w.extractLsb 31 8 ≠ 0#24) ∧
    decode n (h :: rest) ≠ .refuse .illegalConfiguration

/-- 30_encoding R83 and the remark in R88: under a legal opcode the reserved-field checks are exactly
`(h AND mask) != match`. -/
def Obligations.MaskedMatchIsFieldCheck : Prop :=
  ∀ (op : Opcode) (h : Word), h.extractLsb 31 24 = opcodeCode op →
    (decodeHeader h = .error .reservedField ↔ h &&& opcodeMask op ≠ opcodeMatch op)

/-- 30_encoding R88: once the words decide a command or a refusal, words presented later change nothing. -/
def Obligations.LaterWordsDoNotChangeDecode : Prop :=
  ∀ (n : Nat) (ws more : List Word), decode n ws ≠ .wait → decode n (ws ++ more) = decode n ws

/-- 30_encoding R88, R82: a command whose words are not all present waits: on every prefix of its encoding, and behind
its header word on any operand words at all, so an incomplete WRITE_COLUMN_ALL waits even where a payload word that is
already present has a reserved bit set. -/
def Obligations.PartialCommandWaits : Prop :=
  (∀ (n : Nat) (i : Instr) (k : Nat), i.wellFormed n = true → k < (encode i).length →
    decode n ((encode i).take k) = .wait) ∧
  (∀ (n : Nat) (i : Instr) (ws : List Word), i.wellFormed n = true → ws.length + 1 < (encode i).length →
    decode n (encodeHeader i :: ws) = .wait)

/-! ### The address decoder (40_addressing) -/

/-- 40_addressing R111: `chip_index` is a bijection from the grid onto `0 .. N-1`, and the inverse of R117 recovers
the chip's column and row. -/
def Obligations.ChipIndexBijection : Prop :=
  ∀ g : Grid,
    (∀ cc cr, cc < g.cols → cr < g.rows →
      ∃ i, chipIndex g cc cr = some i ∧ i = cr + cc * g.rows ∧ i < g.cols * g.rows ∧ chipOfIndex g i = (cc, cr)) ∧
    (∀ i, i < g.cols * g.rows → ∃! p : Nat × Nat, p.1 < g.cols ∧ p.2 < g.rows ∧ chipIndex g p.1 p.2 = some i)

/-- 40_addressing R110 (corner case) and U1: asked outside the grid, `chip_index` is refused. -/
def Obligations.ChipIndexOutsideGridRefused : Prop :=
  ∀ (g : Grid) (cc cr : Nat), (g.cols ≤ cc ∨ g.rows ≤ cr) → chipIndex g cc cr = none

/-- 40_addressing R113, R112, R115: the decoder compares each coordinate with its own limit, and otherwise gives the
chip, the column and the bit. -/
def Obligations.DecoderAnswersPixelPlace : Prop :=
  ∀ (g : Grid) (x y : Nat),
    ((g.cols * 8 ≤ x ∨ g.rows * 8 ≤ y) → decodePixel g x y = none) ∧
    (x < g.cols * 8 → y < g.rows * 8 → decodePixel g x y = some ⟨y / 8 + x / 8 * g.rows, x % 8, y % 8⟩)

/-- 40_addressing R116: the decoder is a bijection between the in-range pixels and the bits of the storage. -/
def Obligations.DecoderIsBijection : Prop :=
  ∀ g : Grid,
    (∀ x y x' y' d d', decodePixel g x y = some d → decodePixel g x' y' = some d' →
      (storeAddr d.chip d.column, d.bit) = (storeAddr d'.chip d'.column, d'.bit) → x = x' ∧ y = y') ∧
    (∀ a b, a < 8 * (g.cols * g.rows) → b < 8 →
      ∃! p : Nat × Nat, ∃ d, decodePixel g p.1 p.2 = some d ∧ storeAddr d.chip d.column = a ∧ d.bit = b)

/-- 40_addressing R117: the inverse of the decoder. -/
def Obligations.DecoderInverse : Prop :=
  ∀ g : Grid,
    (∀ ci, ci < g.cols * g.rows → chipOfIndex g ci = (ci / g.rows, ci % g.rows)) ∧
    (∀ a b, pixelOfBit g a b = ((chipOfIndex g (a / 8)).1 * 8 + a % 8, (chipOfIndex g (a / 8)).2 * 8 + b)) ∧
    (∀ x y d, decodePixel g x y = some d → pixelOfBit g (storeAddr d.chip d.column) d.bit = (x, y))

/-- 40_addressing R114, R118, 20_memory R51: on a legal configuration every decoded address is inside the storage and
below `2^35`, and every chip index below `2^32`. -/
def Obligations.DecodedAddressesInStorage : Prop :=
  ∀ (arg : ConfigArg) (x y : Nat) (d : PixelAddr), configLegal arg = true →
    decodePixel ⟨arg.cols, arg.rows⟩ x y = some d →
      storeAddr d.chip d.column ≤ 8 * (arg.cols * arg.rows) - 1 ∧
      storeAddr d.chip d.column < 8 * (arg.cols * arg.rows) ∧
      storeAddr d.chip d.column < 2 ^ 35 ∧ d.chip < 2 ^ 32

/-! ### Pixel commands (42_frame_buffer) -/

/-- 42_frame_buffer R150: GET responds the pixel's bit, 0 outside the buffer, and changes nothing else. -/
def Obligations.GetRespondsPixel : Prop :=
  ∀ (x y : Word) (s : State),
    encode (.get x y) = [0x01000000#32, x, y] ∧
    (x.toNat < 8 * s.cols.toNat → y.toNat < 8 * s.rows.toNat →
      exec (.get x y) s = .next { s with
        resp := s.resp ++
          [(fbRead s.fb (8 * (y.toNat / 8 + x.toNat / 8 * s.rows.toNat) + x.toNat % 8)).getLsbD (y.toNat % 8)]
        cpos := s.cpos + 3 }) ∧
    ((8 * s.cols.toNat ≤ x.toNat ∨ 8 * s.rows.toNat ≤ y.toNat) →
      exec (.get x y) s = .next { s with resp := s.resp ++ [false], cpos := s.cpos + 3 })

/-- 42_frame_buffer R151: SET writes its one pixel and no other bit of the storage; nothing else changes but
`cpos`. -/
def Obligations.SetWritesOnePixel : Prop :=
  ∀ (st : PixelState) (x y : Word) (s : State),
    encode (.set st x y) = [0x02#8 ++ stateCode st ++ 0#8 ++ 0#8, x, y] ∧
    ∃ t, exec (.set st x y) s = .next t ∧
      t = { s with fb := t.fb, cpos := s.cpos + 3 } ∧
      (∀ x' y', t.pixel x' y' =
        if x' = x.toNat ∧ y' = y.toNat then (s.pixel x' y').map (fun b => applyState b st) else s.pixel x' y') ∧
      (∀ a, (∀ d, decodePixel s.grid x.toNat y.toNat = some d → a ≠ storeAddr d.chip d.column) →
        fbRead t.fb a = fbRead s.fb a) ∧
      (∀ d, decodePixel s.grid x.toNat y.toNat = some d → ∀ b,
        (fbRead t.fb (storeAddr d.chip d.column)).getLsbD b =
          if b = d.bit then applyState ((fbRead s.fb (storeAddr d.chip d.column)).getLsbD b) st
          else (fbRead s.fb (storeAddr d.chip d.column)).getLsbD b)

/-- 42_frame_buffer R152: an out-of-range SET writes no pixel, not the nearest edge pixel either. -/
def Obligations.SetNeverClamps : Prop :=
  ∀ (st : PixelState) (x y : Word) (s : State),
    (8 * s.cols.toNat ≤ x.toNat ∨ 8 * s.rows.toNat ≤ y.toNat) →
      exec (.set st x y) s = .next { s with cpos := s.cpos + 3 }

/-- 42_frame_buffer R153: FILL_REGION applies its state once to every pixel of the rectangle inside the buffer, with
no wrap, and leaves every other pixel and byte alone. -/
def Obligations.FillRegionFillsClippedRectangle : Prop :=
  ∀ (st : PixelState) (x0 y0 w h : Word) (s : State),
    encode (.fillRegion st x0 y0 w h) = [0x03#8 ++ stateCode st ++ 0#8 ++ 0#8, x0, y0, w, h] ∧
    ∃ t, exec (.fillRegion st x0 y0 w h) s = .next t ∧
      t = { s with fb := t.fb, cpos := s.cpos + 5 } ∧
      (∀ x y, t.pixel x y =
        if x0.toNat ≤ x ∧ x < x0.toNat + w.toNat ∧ y0.toNat ≤ y ∧ y < y0.toNat + h.toNat then
          (s.pixel x y).map (fun b => applyState b st)
        else s.pixel x y) ∧
      (∀ a, (∀ x y d, x0.toNat ≤ x → x < x0.toNat + w.toNat → y0.toNat ≤ y → y < y0.toNat + h.toNat →
          decodePixel s.grid x y = some d → a ≠ storeAddr d.chip d.column) →
        fbRead t.fb a = fbRead s.fb a)

/-- 42_frame_buffer R155: FILL_ALL applies its state to every byte of the storage, which is SET on every pixel. -/
def Obligations.FillAllFillsEveryByte : Prop :=
  ∀ (st : PixelState) (s : State),
    encode (.fillAll st) = [0x04#8 ++ stateCode st ++ 0#8 ++ 0#8] ∧
    ∃ t, exec (.fillAll st) s = .next t ∧
      t = { s with fb := t.fb, cpos := s.cpos + 1 } ∧
      (∀ a, fbRead t.fb a =
        if a < 8 * (s.cols.toNat * s.rows.toNat) then
          match st with
          | .off => 0x00#8
          | .on => 0xFF#8
          | .invert => fbRead s.fb a ^^^ 0xFF#8
        else fbRead s.fb a) ∧
      (∀ x y, t.pixel x y = (s.pixel x y).map (fun b => applyState b st))

/-- 42_frame_buffer R153 (corner case): a rectangle that covers the whole buffer is FILL_ALL, down to equal storage. -/
def Obligations.CoveringRegionIsFillAll : Prop :=
  ∀ (st : PixelState) (w h : Word) (s : State), Memory.wf s.fb →
    8 * s.cols.toNat ≤ w.toNat → 8 * s.rows.toNat ≤ h.toNat →
    ∃ t u, exec (.fillRegion st 0#32 0#32 w h) s = .next t ∧ exec (.fillAll st) s = .next u ∧ t.fb = u.fb

/-- 42_frame_buffer R157: SET with INVERT twice, and FILL_REGION with INVERT twice, leave the frame buffer as
before. -/
def Obligations.InvertTwiceRestores : Prop :=
  ∀ (s : State), Memory.wf s.fb →
    (∀ x y, ∃ t u, exec (.set .invert x y) s = .next t ∧ exec (.set .invert x y) t = .next u ∧ u.fb = s.fb) ∧
    (∀ x0 y0 w h, ∃ t u, exec (.fillRegion .invert x0 y0 w h) s = .next t ∧
      exec (.fillRegion .invert x0 y0 w h) t = .next u ∧ u.fb = s.fb)

/-- 70_reset_and_hazards R225, 20_memory R63: a GET after a SET of the same pixel reads the SET's bit. -/
def Obligations.GetAfterSetReadsBit : Prop :=
  ∀ (st : PixelState) (x y : Word) (s : State),
    x.toNat < 8 * s.cols.toNat → y.toNat < 8 * s.rows.toNat →
    ∃ t u b, exec (.set st x y) s = .next t ∧ exec (.get x y) t = .next u ∧
      s.pixel x.toNat y.toNat = some b ∧ u.resp = s.resp ++ [applyState b st]

/-- 42_frame_buffer R156: a pixel command completes in every state and touches neither OUT nor the chain view nor
FAULT nor REFUSED: only the frame buffer, RESP for GET, and `cpos`. -/
def Obligations.PixelCommandsNeverFault : Prop :=
  ∀ (i : Instr) (s : State), isPixel i = true →
    ∃ t, exec i s = .next t ∧ t = { s with fb := t.fb, resp := t.resp, cpos := t.cpos } ∧
      (∀ k r, t.chainRead k r = s.chainRead k r) ∧
      (writesBuffer i = true → t.resp = s.resp) ∧ (writesBuffer i = false → t.fb = s.fb)

/-! ### Register multiplexer (41_register_protocol) -/

/-- 41_register_protocol R133: WRITE_ONE's encoding; one burst of no-op pairs around the target pair, which only the
target chip latches; nothing outside the chain; a fault when the transport fails. No burst outside the chain (R134,
D10; log 17), the padding pair's value 0x00 (R131, D6; log 3) and the fault (R193, D16; log 6, log 17) are the spec's
own decisions. -/
def Obligations.WriteOneReachesOneChip : Prop :=
  ∀ (reg : Reg) (value : Byte) (chip : Word) (s : State),
    encode (.writeOne reg value chip) = [0x06#8 ++ regAddr reg ++ value ++ 0#8, chip] ∧
    (s.n ≤ chip.toNat → exec (.writeOne reg value chip) s = .next { s with cpos := s.cpos + 2 }) ∧
    (chip.toNat < s.n → s.answer 0 = true →
      ∃ t, exec (.writeOne reg value chip) s = .next t ∧
        Emitted s (.writeOne reg value chip) [(List.replicate (s.n - 1 - chip.toNat) [0x00#8, 0x00#8]).flatten ++ [regAddr reg, value] ++
          (List.replicate chip.toNat [0x00#8, 0x00#8]).flatten] 2 t ∧
        ∀ k r, t.chainRead k r =
          if k = chip.toNat ∧ r = reg ∧ r ≠ .noop then some value else s.chainRead k r) ∧
    (chip.toNat < s.n → s.answer 0 = false →
      ∃ t, exec (.writeOne reg value chip) s = .next t ∧
        TransportFailed s [] ((List.replicate (s.n - 1 - chip.toNat) [0x00#8, 0x00#8]).flatten ++
          [regAddr reg, value] ++ (List.replicate chip.toNat [0x00#8, 0x00#8]).flatten) t)

/-- 41_register_protocol R135, R136: WRITE_ALL's encoding; the pair once for each chip, latched by every chip unless
it is NOOP; a fault when the transport fails, which is the spec's own decision (60_exceptions R193, D16; log 6,
log 17). -/
def Obligations.WriteAllReachesEveryChip : Prop :=
  ∀ (reg : Reg) (value : Byte) (s : State),
    encode (.writeAll reg value) = [0x07#8 ++ regAddr reg ++ value ++ 0#8] ∧
    (s.answer 0 = true →
      ∃ t, exec (.writeAll reg value) s = .next t ∧
        Emitted s (.writeAll reg value) [(List.replicate s.n [regAddr reg, value]).flatten] 1 t ∧
        ∀ k r, t.chainRead k r = if k < s.n ∧ r = reg ∧ r ≠ .noop then some value else s.chainRead k r) ∧
    (s.answer 0 = false →
      ∃ t, exec (.writeAll reg value) s = .next t ∧
        TransportFailed s [] (List.replicate s.n [regAddr reg, value]).flatten t)

/-- 41_register_protocol R137, R138, R139: WRITE_COLUMN_ALL's encoding; one burst that gives chip `j` its value in the
column register; no burst for a column above 7, with the payload consumed, which is the spec's own decision (R139,
D11; log 17); a fault when the transport fails, which is too (60_exceptions R193, D16; log 6, log 17). -/
def Obligations.WriteColumnAllGivesEachChipItsValue : Prop :=
  ∀ (column : Byte) (values : List Byte) (s : State), values.length = s.n →
    encode (.writeColumnAll column values) =
      (0x08#8 ++ column ++ 0#8 ++ 0#8) :: values.map (fun v => v.setWidth 32) ∧
    (7 < column.toNat → exec (.writeColumnAll column values) s = .next { s with cpos := s.cpos + 1 + s.n }) ∧
    (column.toNat ≤ 7 → s.answer 0 = true →
      ∃ t, exec (.writeColumnAll column values) s = .next t ∧
        Emitted s (.writeColumnAll column values) [values.reverse.flatMap (fun v => [column + 1#8, v])] (1 + s.n) t ∧
        (∀ j (hj : j < values.length), t.chainRead j (.digit (Fin.ofNat 8 column.toNat)) = some values[j]) ∧
        (∀ k r, r ≠ .digit (Fin.ofNat 8 column.toNat) → t.chainRead k r = s.chainRead k r)) ∧
    (column.toNat ≤ 7 → s.answer 0 = false →
      ∃ t, exec (.writeColumnAll column values) s = .next t ∧
        TransportFailed s [] (values.reverse.flatMap (fun v => [column + 1#8, v])) t)

/-- 41_register_protocol R137 (corner case): with all values equal the burst is that of WRITE_ALL to the column
register, and the chain is left with the same registers. -/
def Obligations.EqualColumnIsWriteAll : Prop :=
  ∀ (k : Fin 8) (v : Byte) (s : State), s.answer 0 = true →
    ∃ t u, exec (.writeColumnAll (BitVec.ofNat 8 k.val) (List.replicate s.n v)) s = .next t ∧
      exec (.writeAll (.digit k) v) s = .next u ∧
      t.out = u.out ∧ ∀ c r, t.chainRead c r = u.chainRead c r

/-- 20_memory R61: sending the same WRITE command twice leaves the chain view as once, and appends its bursts again. -/
def Obligations.WriteTwiceLatchesOnce : Prop :=
  ∀ (i : Instr) (s : State), isPixel i = false → i ≠ .render → TransportAccepts s 2 →
    ∃ t u, exec i s = .next t ∧ exec i t = .next u ∧
      (∃ bs, t.out = s.out ++ bs ∧ u.out = t.out ++ bs) ∧ ∀ k r, u.chainRead k r = t.chainRead k r

/-! ### Renderer (43_renderer) -/

/-- 43_renderer R171, R170: RENDER's encoding; 8 bursts, column registers ascending, each from the last chip to the
first with the chip's storage byte, which are the bursts of WRITE_COLUMN_ALL; on a failure of burst `k` the bursts
before it are out and the later ones never sent. The order of the bursts and the column mapping (D7, D8; log 17), and
the fault with every chain register a new draw (60_exceptions R193, D16; log 6, log 17), are the spec's own
decisions. -/
def Obligations.RenderSerializesFrameBuffer : Prop :=
  ∀ (s : State),
    encode .render = [0x05000000#32] ∧
    (∀ k, k < 8 → askedBursts s .render =
      (askedBursts s .render).take k ++
        askedBursts s (.writeColumnAll (BitVec.ofNat 8 k)
          ((List.range s.n).map (fun ci => fbRead s.fb (8 * ci + k)))) ++
        (askedBursts s .render).drop (k + 1)) ∧
    (TransportAccepts s 8 →
      ∃ t, exec .render s = .next t ∧
        Emitted s .render ((List.range 8).map (fun k => (List.range s.n).flatMap (fun p =>
          [BitVec.ofNat 8 (k + 1), fbRead s.fb (8 * (s.n - 1 - p) + k)]))) 1 t) ∧
    (∀ k, k < 8 → TransportFailsAt s k →
      ∃ t, exec .render s = .next t ∧
        TransportFailed s ((askedBursts s .render).take k) (((askedBursts s .render)[k]?).getD []) t)

/-- 43_renderer R172: after a RENDER whose bursts are all delivered, every column register holds its storage byte,
and on initialized chips the display view is the frame buffer at every pixel. Which chips count as initialized is the
model's reading (log 20); the display view is the stored column bytes only (log 19). -/
def Obligations.RenderShowsFrameBuffer : Prop :=
  ∀ (s : State), TransportAccepts s 8 →
    ∃ t, exec .render s = .next t ∧
      (∀ ci (k : Fin 8), ci < s.n → t.chainRead ci (.digit k) = some (fbRead t.fb (8 * ci + k.val))) ∧
      (s.initialized = true → t.booted = true ∧ ∀ x y, t.displayLit x y = t.pixel x y) ∧
      (∀ x y, t.pixel x y = s.pixel x y)

/-- 70_reset_and_hazards R223, R224, R231, U10: until the chips have latched both INIT_CHAIN and a RENDER, the
display view is any value (the free value of log 20): before the boot in every state, after a RENDER to chips that are
not initialized, although its bursts are the correct ones, and after any commands without a RENDER to chips that were
not rendered to, whatever INIT_CHAIN and column registers they wrote. After the boot it is the column registers' bits
(10_state R43). Which chips count as initialized and rendered to is the model's reading (log 20). -/
def Obligations.DisplayUnspecifiedBeforeBoot : Prop :=
  (∀ (s : State) (x y : Nat), s.booted = false → s.displayLit x y =
    (s.pixel x y).map (fun _ => Config.displayBeforeBoot s.chainEpoch s.delivered.length x y)) ∧
  (∀ (s : State) (x y : Nat) (d : PixelAddr), s.booted = true → decodePixel s.grid x y = some d →
    s.displayLit x y = (s.chainRead d.chip (.digit (Fin.ofNat 8 d.column))).map (fun v => v.getLsbD d.bit)) ∧
  (∀ (s : State), s.initialized = false → TransportAccepts s 8 → ∃ t, exec .render s = .next t ∧
    t.out = s.out ++ askedBursts s .render ∧
    ∀ x y, t.displayLit x y =
      (s.pixel x y).map (fun _ => Config.displayBeforeBoot s.chainEpoch (s.delivered.length + 8) x y)) ∧
  (∀ (s t : State) (is : List Instr), s.rendered = false → .render ∉ is → runCommands is s = .next t →
    ∀ x y, t.displayLit x y =
      (t.pixel x y).map (fun _ => Config.displayBeforeBoot t.chainEpoch t.delivered.length x y))

/-- 43_renderer R173: RENDER is idempotent: whatever GET, WRITE and RENDER commands fall between two of them, the second
sends the very bursts of the first and leaves the column registers as the first left them; with GETs only (or nothing)
between, it leaves the whole chain view as the first left it. -/
def Obligations.RenderIsIdempotent : Prop :=
  ∀ (s t u v : State) (js : List Instr), (∀ j ∈ js, writesBuffer j = false) →
    TransportAccepts s 8 → exec .render s = .next t →
    runCommands js t = .next u → TransportAccepts u 8 → exec .render u = .next v →
      (∃ bs, bs.length = 8 ∧ t.out = s.out ++ bs ∧ v.out = u.out ++ bs) ∧
      (∀ k (d : Fin 8), v.chainRead k (.digit d) = t.chainRead k (.digit d)) ∧
      ((∀ j ∈ js, isPixel j = true) → ∀ k r, v.chainRead k r = t.chainRead k r)

/-- 43_renderer R174: RENDER writes only the column registers of each chip. -/
def Obligations.RenderKeepsChipConfiguration : Prop :=
  ∀ (s : State), TransportAccepts s 8 →
    ∃ t, exec .render s = .next t ∧
      ∀ k r, (∀ d : Fin 8, r ≠ .digit d) → t.chainRead k r = s.chainRead k r

/-- 43_renderer R175, 30_encoding R94: CLEAR, FILL_ALL OFF then RENDER: storage all 0x00, 8 bursts of pairs
`[DIGIT(k), 0x00]`, column registers all 0x00, the chips' other registers and the rest of the block as before. -/
def Obligations.ClearBlanksBufferAndChain : Prop :=
  ∀ (s : State), TransportAccepts s 8 → Running s →
    expandPseudo s.brightness .clear = [.fillAll .off, .render] ∧
    ∃ t, runCommands (expandPseudo s.brightness .clear) s = .next t ∧
      t = { s with
        fb := t.fb
        out := s.out ++ (List.range 8).map (fun k => (List.replicate s.n [BitVec.ofNat 8 (k + 1), 0x00#8]).flatten)
        cpos := s.cpos + 2
        answers := s.answers.drop 8
        draws := s.draws + (8 - s.answers.length)
        chain := t.chain
        delivered := s.delivered ++
          (List.range 8).map (fun k => ⟨.render, (List.replicate s.n [BitVec.ofNat 8 (k + 1), 0x00#8]).flatten⟩) } ∧
      (∀ a, a < 8 * s.n → fbRead t.fb a = 0x00#8) ∧
      (∀ k (d : Fin 8), k < s.n → t.chainRead k (.digit d) = some 0x00#8) ∧
      (∀ k r, (∀ d : Fin 8, r ≠ .digit d) → t.chainRead k r = s.chainRead k r)

/-- 43_renderer R176: the source's end-to-end test on a 2 x 1 grid. -/
def Obligations.EndToEndTwoChips : Prop :=
  ∃ t u, exec (.set .on 0#32 0#32) (State.start ⟨2, 1, 0⟩ [] [] (List.replicate 8 true)) = .next t ∧
    exec .render t = .next u ∧
    u.out = [[0x01#8, 0x00#8, 0x01#8, 0x01#8], [0x02#8, 0x00#8, 0x02#8, 0x00#8], [0x03#8, 0x00#8, 0x03#8, 0x00#8],
      [0x04#8, 0x00#8, 0x04#8, 0x00#8], [0x05#8, 0x00#8, 0x05#8, 0x00#8], [0x06#8, 0x00#8, 0x06#8, 0x00#8],
      [0x07#8, 0x00#8, 0x07#8, 0x00#8], [0x08#8, 0x00#8, 0x08#8, 0x00#8]]

/-- 70_reset_and_hazards R223, R224, 30_encoding R97: after INIT_CHAIN and RENDER, every register of every chip is
defined: the boot values and the frame buffer, and the display view equals the frame buffer, whatever the chain was
before. The boot values are the spec's own (D18; log 3), the display view is the stored column bytes (log 19). -/
def Obligations.BootMakesDisplayDefined : Prop :=
  ∀ (s : State), TransportAccepts s 13 → Running s →
    ∃ t, runCommands (expandPseudo s.brightness .initChain ++ [.render]) s = .next t ∧
      (∀ k, k < s.n → t.chainRead k .scanLimit = some 0x07#8 ∧ t.chainRead k .decodeMode = some 0x00#8 ∧
        t.chainRead k .displayTest = some 0x00#8 ∧
        t.chainRead k .intensity = some (s.brightness.setWidth 8) ∧ t.chainRead k .shutdown = some 0x01#8) ∧
      (∀ ci (k : Fin 8), ci < s.n → t.chainRead ci (.digit k) = some (fbRead s.fb (8 * ci + k.val))) ∧
      (∀ x y, t.displayLit x y = s.pixel x y)

/-- 70_reset_and_hazards R227: the WRITE commands bypass the frame buffer: whatever they do to the chain, storage is as
before, and a GET after one answers what it would have answered before it. -/
def Obligations.WriteCommandsBypassBuffer : Prop :=
  ∀ (i : Instr) (s : State), isPixel i = false →
    ∃ t, exec i s = .next t ∧ t.fb = s.fb ∧ t.resp = s.resp ∧
      ∀ x y, ∃ u v b, exec (.get x y) t = .next u ∧ exec (.get x y) s = .next v ∧
        u.resp = s.resp ++ [b] ∧ v.resp = s.resp ++ [b]

/-! ### Outcomes of a command (60_exceptions) -/

/-- 60_exceptions R193: when the first failing draw is the one of burst `k` of a command, FAULT and HALT_INFO are set,
`cpos` and the frame buffer are as before, OUT has gained the bursts before it, and every register of the chain is a
draw: the free value `Config.chainAfterFault` of the model (log 6). -/
def Obligations.TransportFailureFaults : Prop :=
  ∀ (i : Instr) (s : State) (k : Nat) (b : Burst), (askedBursts s i)[k]? = some b → TransportFailsAt s k →
    ∃ t, exec i s = .next t ∧ TransportFailed s ((askedBursts s i).take k) b t ∧
      ∀ c r, t.chainRead c r =
        if c < s.n ∧ r ≠ .noop then some (Config.chainAfterFault s.chainEpoch c r) else none

/-- 60_exceptions R194, R190: every command completes with a next state in every state, is not refused, and faults
only where a draw of the transport among its own was false. -/
def Obligations.OnlyTransportFaults : Prop :=
  ∀ (i : Instr) (s : State), i.wellFormed s.n = true →
    ∃ t, exec i s = .next t ∧ t.refused = s.refused ∧
      (t.fault = s.fault ∨ ∃ k, k < (askedBursts s i).length ∧ s.answer k = false)

/-- 60_exceptions R191: a refusal by the decoder sets REFUSED and HALT_INFO (reason code, `cpos`, header word) and
changes nothing else; a reset with an illegal configuration is refused with reason 6 and no word. -/
def Obligations.RefusalIsPrecise : Prop :=
  (∀ (s : State) (r : RefuseReason), s.host = [] → Running s → decode s.n (s.cmd.drop s.cpos) = .refuse r →
    ∃ h, s.cmd[s.cpos]? = some h ∧
      step s = .next { s with
        refused := true
        haltInfo := some ⟨(match r with
          | .reservedOpcode => 1#8
          | .reservedField => 2#8
          | .reservedState => 3#8
          | .reservedRegister => 4#8
          | .reservedPayload => 5#8
          | .illegalConfiguration => 6#8), s.cpos, .header h⟩ }) ∧
  (∀ arg : ConfigArg, configLegal arg = false →
    (State.powerUp arg).refused = true ∧ (State.powerUp arg).haltInfo = some ⟨6#8, 0, .nothing⟩)

/-- 60_exceptions R198, 10_state R27: a halted block takes no step of its own: the step stops, by the flag's name. -/
def Obligations.HaltedBlockTakesNoStep : Prop :=
  ∀ (s : State), s.host = [] →
    (s.refused = true → step s = .refused .haltedRefused) ∧
    (s.refused = false → s.fault = true → step s = .fault .haltedFault)

/-- 60_exceptions R198, 10_state R27: no step but a reset by the host clears REFUSED or FAULT. -/
def Obligations.OnlyResetClearsFlags : Prop :=
  ∀ (s t : State), step s = .next t → (∀ ws rest, s.host ≠ .reset ws :: rest) →
    (s.refused = true → t.refused = true) ∧ (s.fault = true → t.fault = true) ∧
    ((s.refused = true ∨ s.fault = true) → t.haltInfo = s.haltInfo ∧ t.cpos = s.cpos ∧ t.fb = s.fb ∧ t.out = s.out ∧
      t.resp = s.resp)

/-! ### Steps (10_state, 30_encoding) -/

/-- 10_state R36, 30_encoding R88: with no action of the host pending, the step of a running block at whose `cpos` the
words decode to a command is exactly that command's `exec`. -/
def Obligations.StepRunsDecodedCommand : Prop :=
  ∀ (s : State) (i : Instr), s.host = [] → s.refused = false → s.fault = false →
    decode s.n (s.cmd.drop s.cpos) = .command i → step s = exec i s

/-- 10_state R36, U12: a running block whose command is not complete waits: a step that changes nothing (log 10). -/
def Obligations.WaitingStepChangesNothing : Prop :=
  ∀ (s : State), s.host = [] → s.refused = false → s.fault = false →
    decode s.n (s.cmd.drop s.cpos) = .wait → step s = .next s

/-- 60_exceptions R202 (model's schedule, log 2): the host's next action is taken first: presented words are appended
to CMD and nothing else changes; a granted step is the block's own step. -/
def Obligations.HostActsBetweenSteps : Prop :=
  ∀ (s : State) (rest : List HostAction),
    (∀ ws, step { s with host := .present ws :: rest } = .next { s with host := rest, cmd := s.cmd ++ ws }) ∧
    step { s with host := .grant :: rest } = commandStep { s with host := rest } ∧
    (s.host = [] → step s = commandStep s)

/-- 10_state R35: `cpos` is 0 after reset; an accepted command advances it by its length in words; a refused or a
faulted one leaves it. -/
def Obligations.CposAdvancesByCommandLength : Prop :=
  (∀ arg, (State.powerUp arg).cpos = 0) ∧
  (∀ (s : State) (ws : List Word), (s.resetBlock ws).cpos = 0) ∧
  (∀ (i : Instr) (s : State), i.wellFormed s.n = true → s.fault = false →
    ∃ t, exec i s = .next t ∧
      (t.fault = false → t.cpos = s.cpos + (encode i).length) ∧ (t.fault = true → t.cpos = s.cpos)) ∧
  (∀ (s : State) (r : RefuseReason), (s.refuse r).cpos = s.cpos)

/-- 10_state R31, R30, 41_register_protocol R132: a command only appends to OUT, and every burst it appends is `2 * N`
bytes of pairs whose register byte is one of the 14 addresses. That only these register bytes are emitted, and what
they are, are the spec's own decisions (R132, R130, D30, D5; log 3). -/
def Obligations.BurstsAreWholeAndNamed : Prop :=
  ∀ (i : Instr) (s : State), ∃ t bs, exec i s = .next t ∧ t.out = s.out ++ bs ∧
    ∀ b ∈ bs, b.length = 2 * s.n ∧
      ∀ p, p < s.n → (b.getD (2 * p) 0xFF#8 ≤ 0x0C#8 ∨ b.getD (2 * p) 0xFF#8 = 0x0F#8)

/-- 10_state R32: only GET writes RESP, and it appends one bit. -/
def Obligations.OnlyGetResponds : Prop :=
  ∀ (i : Instr) (s : State), ∃ t, exec i s = .next t ∧
    (∀ x y, i = .get x y → ∃ b, t.resp = s.resp ++ [b]) ∧ ((∀ x y, i ≠ .get x y) → t.resp = s.resp)

/-- 42_frame_buffer R158, 10_state R20, R22: no command writes COLS, ROWS or BRIGHTNESS, so the buffer's dimensions
never change. -/
def Obligations.CommandsKeepConfiguration : Prop :=
  ∀ (i : Instr) (s : State), ∃ t, exec i s = .next t ∧
    t.cols = s.cols ∧ t.rows = s.rows ∧ t.brightness = s.brightness ∧ t.cfgArg = s.cfgArg

/-- 10_state R22, D19: no command reads BRIGHTNESS: with another BRIGHTNESS a command does the same. -/
def Obligations.CommandsIgnoreBrightness : Prop :=
  ∀ (i : Instr) (s : State) (b : BitVec 4), ∃ t, exec i s = .next t ∧
    exec i { s with brightness := b } = .next { t with brightness := b }

/-- 20_memory R50, 10_state R44: the block never reads the chip registers: from two states that differ only in the
chain, a step either stops alike or leaves states that differ only in the chain (its registers and the model's own
record of it). -/
def Obligations.BlockNeverReadsChain : Prop :=
  ∀ (s : State) (m : List Host.Cell) (e : Nat) (l : List Sent),
    match step s with
    | .next t => ∃ m' e' l', step { s with chain := m, chainEpoch := e, delivered := l } =
        .next { t with chain := m', chainEpoch := e', delivered := l' }
    | .fault f => step { s with chain := m, chainEpoch := e, delivered := l } = .fault f
    | .refused r => step { s with chain := m, chainEpoch := e, delivered := l } = .refused r

/-- 10_state R42, U8: a burst of another length than `2 * N`, or with a register byte that names no register, is
refused before anything happens. -/
def Obligations.IllegalBurstRefused : Prop :=
  ∀ (s : State) (i : Instr) (b : Burst) (k : Nat),
    (b.length ≠ 2 * s.n ∨ ∃ p, p < s.n ∧ regOfAddr (b.getD (2 * p) 0x00#8) = none) →
      emitAll s i [b] k = .refused .illegalBurst

/-! ### Reset and the invariant (70_reset_and_hazards) -/

/-- 70_reset_and_hazards R220: a reset by the host is one step that loads the configuration, clears the block and
leaves the chain view alone; at power-up the same values are loaded. What CMD holds after it is the model's choice
(log 8): the host's words. -/
def Obligations.ResetLoadsAndClears : Prop :=
  (∀ (s : State) (ws : List Word) (rest : List HostAction), configLegal s.cfgArg = true →
    step { s with host := .reset ws :: rest } = .next { s with
      cols := BitVec.ofNat 32 s.cfgArg.cols
      rows := BitVec.ofNat 32 s.cfgArg.rows
      brightness := BitVec.ofNat 4 s.cfgArg.brightness
      refused := false
      fault := false
      haltInfo := none
      out := []
      resp := []
      cpos := 0
      fb := []
      host := rest
      cmd := ws }) ∧
  (∀ arg : ConfigArg, configLegal arg = true →
    (State.powerUp arg).cols.toNat = arg.cols ∧ (State.powerUp arg).rows.toNat = arg.rows ∧
    (State.powerUp arg).brightness.toNat = arg.brightness ∧ (State.powerUp arg).refused = false ∧
    (State.powerUp arg).fault = false ∧ (State.powerUp arg).haltInfo = none ∧ (State.powerUp arg).out = [] ∧
    (State.powerUp arg).resp = [] ∧ (State.powerUp arg).cpos = 0 ∧
    ∀ a, a < 8 * (State.powerUp arg).n → (State.powerUp arg).memRead a = some 0x00#8)

/-- 70_reset_and_hazards R221: exactly the listed configurations are illegal; reset ends refused with
`(IllegalConfiguration, 0, none)`, whether at power-up or by the host, and the block accepts no command. -/
def Obligations.IllegalConfigurationRefused : Prop :=
  (∀ arg : ConfigArg, configLegal arg = false ↔
    (arg.cols < 1 ∨ arg.rows < 1 ∨ arg.cols > 2 ^ 29 ∨ arg.rows > 2 ^ 29 ∨ arg.cols * arg.rows > 2 ^ 32 - 1 ∨
      arg.brightness > 15)) ∧
  (∀ (arg : ConfigArg) (cmd : List Word) (answers : List Bool), configLegal arg = false →
    (State.start arg cmd [] answers).refused = true ∧
    (State.start arg cmd [] answers).haltInfo = some ⟨6#8, 0, .nothing⟩ ∧
    step (State.start arg cmd [] answers) = .refused .haltedRefused) ∧
  (∀ (s : State) (ws : List Word), configLegal s.cfgArg = false →
    ∃ t, step { s with host := [.reset ws] } = .next t ∧ t.refused = true ∧
      t.haltInfo = some ⟨6#8, 0, .nothing⟩ ∧ step t = .refused .haltedRefused)

/-- The invariant holds in `State.reset`. -/
def Obligations.InvariantAtReset : Prop := Invariant State.reset

/-- The invariant holds wherever a run starts: every configuration argument, words, schedule and answers. -/
def Obligations.InvariantAtEveryStart : Prop :=
  ∀ (arg : ConfigArg) (cmd : List Word) (host : List HostAction) (answers : List Bool),
    Invariant (State.start arg cmd host answers)

/-- Every step from every state that meets the invariant, a reset or any action of the host included, gives a state
that meets it: canonical storage inside `8N` bytes, whole named bursts in OUT, a chain of the chips' registers only,
configuration as loaded, one recorded halt, `cpos` inside CMD. -/
def Obligations.StepKeepsInvariant : Prop :=
  ∀ (s t : State), Invariant s → step s = .next t → Invariant t

/-- 42_frame_buffer R158, 10_state R20: under the invariant no step, not even a reset, changes the grid. -/
def Obligations.GridNeverChanges : Prop :=
  ∀ (s t : State), Invariant s → step s = .next t → t.cols = s.cols ∧ t.rows = s.rows ∧ t.brightness = s.brightness

/-! ### Assembler and pseudo-instructions (30_encoding) -/

/-- 30_encoding R94 to R97: the words of the pseudo-instructions. -/
def Obligations.PseudoInstructionWords : Prop :=
  ∀ (b : BitVec 4) (x y : Word),
    (expandPseudo b .clear).flatMap encode = [0x04000000#32, 0x05000000#32] ∧
    (expandPseudo b .clearBuffer).flatMap encode = [0x04000000#32] ∧
    expandPseudo b (.pixelOn x y) = [.set .on x y] ∧
    (expandPseudo b (.pixelOn x y)).flatMap encode = [0x02010000#32, x, y] ∧
    expandPseudo b (.pixelOff x y) = [.set .off x y] ∧
    (expandPseudo b (.pixelOff x y)).flatMap encode = [0x02000000#32, x, y] ∧
    expandPseudo b (.pixelToggle x y) = [.set .invert x y] ∧
    (expandPseudo b (.pixelToggle x y)).flatMap encode = [0x02020000#32, x, y] ∧
    (expandPseudo b .initChain).flatMap encode =
      [0x070B0700#32, 0x07090000#32, 0x070F0000#32, 0x07#8 ++ 0x0A#8 ++ b.setWidth 8 ++ 0x00#8, 0x070C0100#32]

/-- 60_exceptions R192, 30_encoding R92: every line the assembler accepts gives commands that are well formed for the
chain; a WRITE_COLUMN_ALL with another number of values than N is padded with 0x00 or truncated, not rejected; values
past the N-th are dropped before any is fitted into its field, whatever they are (log 21), and one of the first N that
exceeds 0xFF rejects the line. -/
def Obligations.AssembledCommandsAreWellFormed : Prop :=
  (∀ (n : Nat) (b : BitVec 4) (l : AsmLine) (is : List Instr), assembleLine n b l = some is →
    ∀ i ∈ is, i.wellFormed n = true) ∧
  (∀ (n : Nat) (b : BitVec 4) (c : Byte) (vs : List Byte),
    assembleLine n b (.writeColumnAll c.toNat (vs.map BitVec.toNat)) =
      some [.writeColumnAll c (vs.take n ++ List.replicate (n - vs.length) 0x00#8)]) ∧
  (∀ (b : BitVec 4) (c : Byte) (vs : List Byte) (more : List Nat),
    assembleLine vs.length b (.writeColumnAll c.toNat (vs.map BitVec.toNat ++ more)) = some [.writeColumnAll c vs]) ∧
  (∀ (n : Nat) (b : BitVec 4) (c : Nat) (vs : List Nat), (∃ v ∈ vs.take n, 0xFF < v) →
    assembleLine n b (.writeColumnAll c vs) = none)

/-! ### Frames in one statement -/

/-- 60_exceptions R196, 20_memory R59: what each command may change at all: everything else of the state is as before,
in every outcome. Storage only by the commands that write it, RESP only by GET, OUT, FAULT, HALT_INFO, the draws and
the chain only by RENDER and the WRITE commands. -/
def Obligations.CommandFrames : Prop :=
  ∀ (i : Instr) (s : State), ∃ t, exec i s = .next t ∧
    (writesBuffer i = true → t = { s with fb := t.fb, cpos := t.cpos }) ∧
    (isPixel i = true → writesBuffer i = false → t = { s with resp := t.resp, cpos := t.cpos }) ∧
    (isPixel i = false → t = { s with
      out := t.out, cpos := t.cpos, fault := t.fault, haltInfo := t.haltInfo, answers := t.answers, draws := t.draws
      chain := t.chain, chainEpoch := t.chainEpoch, delivered := t.delivered }) ∧
    (isPixel i = false → askedBursts s i = [] → i.wellFormed s.n = true →
      t = { s with cpos := s.cpos + (encode i).length }) ∧
    (∀ a, 8 * s.n ≤ a → fbRead t.fb a = fbRead s.fb a)
end

