-- ==== Sys2Proof/Laws/State.lean ====
section
/-! SUPPORT. One lemma per field of the state and update of it, so that no proof unfolds a record update. -/

namespace Sys2Proof.Machine

variable (s : State)

/-! ### advance -/

@[simp] theorem State.advance_cols (k : Nat) : (s.advance k).cols = s.cols := rfl
@[simp] theorem State.advance_rows (k : Nat) : (s.advance k).rows = s.rows := rfl
@[simp] theorem State.advance_brightness (k : Nat) : (s.advance k).brightness = s.brightness := rfl
@[simp] theorem State.advance_fb (k : Nat) : (s.advance k).fb = s.fb := rfl
@[simp] theorem State.advance_refused (k : Nat) : (s.advance k).refused = s.refused := rfl
@[simp] theorem State.advance_fault (k : Nat) : (s.advance k).fault = s.fault := rfl
@[simp] theorem State.advance_haltInfo (k : Nat) : (s.advance k).haltInfo = s.haltInfo := rfl
@[simp] theorem State.advance_out (k : Nat) : (s.advance k).out = s.out := rfl
@[simp] theorem State.advance_resp (k : Nat) : (s.advance k).resp = s.resp := rfl
@[simp] theorem State.advance_cpos (k : Nat) : (s.advance k).cpos = s.cpos + k := rfl
@[simp] theorem State.advance_cfgArg (k : Nat) : (s.advance k).cfgArg = s.cfgArg := rfl
@[simp] theorem State.advance_cmd (k : Nat) : (s.advance k).cmd = s.cmd := rfl
@[simp] theorem State.advance_host (k : Nat) : (s.advance k).host = s.host := rfl
@[simp] theorem State.advance_answers (k : Nat) : (s.advance k).answers = s.answers := rfl
@[simp] theorem State.advance_draws (k : Nat) : (s.advance k).draws = s.draws := rfl
@[simp] theorem State.advance_chain (k : Nat) : (s.advance k).chain = s.chain := rfl
@[simp] theorem State.advance_chainEpoch (k : Nat) : (s.advance k).chainEpoch = s.chainEpoch := rfl
@[simp] theorem State.advance_delivered (k : Nat) : (s.advance k).delivered = s.delivered := rfl
@[simp] theorem State.advance_grid (k : Nat) : (s.advance k).grid = s.grid := rfl
@[simp] theorem State.advance_n (k : Nat) : (s.advance k).n = s.n := rfl

/-! ### respond -/

@[simp] theorem State.respond_cols (b : Bool) : (s.respond b).cols = s.cols := rfl
@[simp] theorem State.respond_rows (b : Bool) : (s.respond b).rows = s.rows := rfl
@[simp] theorem State.respond_brightness (b : Bool) : (s.respond b).brightness = s.brightness := rfl
@[simp] theorem State.respond_fb (b : Bool) : (s.respond b).fb = s.fb := rfl
@[simp] theorem State.respond_refused (b : Bool) : (s.respond b).refused = s.refused := rfl
@[simp] theorem State.respond_fault (b : Bool) : (s.respond b).fault = s.fault := rfl
@[simp] theorem State.respond_haltInfo (b : Bool) : (s.respond b).haltInfo = s.haltInfo := rfl
@[simp] theorem State.respond_out (b : Bool) : (s.respond b).out = s.out := rfl
@[simp] theorem State.respond_resp (b : Bool) : (s.respond b).resp = s.resp ++ [b] := rfl
@[simp] theorem State.respond_cpos (b : Bool) : (s.respond b).cpos = s.cpos := rfl
@[simp] theorem State.respond_cfgArg (b : Bool) : (s.respond b).cfgArg = s.cfgArg := rfl
@[simp] theorem State.respond_cmd (b : Bool) : (s.respond b).cmd = s.cmd := rfl
@[simp] theorem State.respond_host (b : Bool) : (s.respond b).host = s.host := rfl
@[simp] theorem State.respond_answers (b : Bool) : (s.respond b).answers = s.answers := rfl
@[simp] theorem State.respond_draws (b : Bool) : (s.respond b).draws = s.draws := rfl
@[simp] theorem State.respond_chain (b : Bool) : (s.respond b).chain = s.chain := rfl
@[simp] theorem State.respond_chainEpoch (b : Bool) : (s.respond b).chainEpoch = s.chainEpoch := rfl
@[simp] theorem State.respond_delivered (b : Bool) : (s.respond b).delivered = s.delivered := rfl
@[simp] theorem State.respond_grid (b : Bool) : (s.respond b).grid = s.grid := rfl
@[simp] theorem State.respond_n (b : Bool) : (s.respond b).n = s.n := rfl

/-! ### setRefused -/

@[simp] theorem State.setRefused_cols (i : HaltInfo) : (s.setRefused i).cols = s.cols := rfl
@[simp] theorem State.setRefused_rows (i : HaltInfo) : (s.setRefused i).rows = s.rows := rfl
@[simp] theorem State.setRefused_brightness (i : HaltInfo) : (s.setRefused i).brightness = s.brightness := rfl
@[simp] theorem State.setRefused_fb (i : HaltInfo) : (s.setRefused i).fb = s.fb := rfl
@[simp] theorem State.setRefused_refused (i : HaltInfo) : (s.setRefused i).refused = true := rfl
@[simp] theorem State.setRefused_fault (i : HaltInfo) : (s.setRefused i).fault = s.fault := rfl
@[simp] theorem State.setRefused_haltInfo (i : HaltInfo) : (s.setRefused i).haltInfo = some i := rfl
@[simp] theorem State.setRefused_out (i : HaltInfo) : (s.setRefused i).out = s.out := rfl
@[simp] theorem State.setRefused_resp (i : HaltInfo) : (s.setRefused i).resp = s.resp := rfl
@[simp] theorem State.setRefused_cpos (i : HaltInfo) : (s.setRefused i).cpos = s.cpos := rfl
@[simp] theorem State.setRefused_cfgArg (i : HaltInfo) : (s.setRefused i).cfgArg = s.cfgArg := rfl
@[simp] theorem State.setRefused_cmd (i : HaltInfo) : (s.setRefused i).cmd = s.cmd := rfl
@[simp] theorem State.setRefused_host (i : HaltInfo) : (s.setRefused i).host = s.host := rfl
@[simp] theorem State.setRefused_answers (i : HaltInfo) : (s.setRefused i).answers = s.answers := rfl
@[simp] theorem State.setRefused_draws (i : HaltInfo) : (s.setRefused i).draws = s.draws := rfl
@[simp] theorem State.setRefused_chain (i : HaltInfo) : (s.setRefused i).chain = s.chain := rfl
@[simp] theorem State.setRefused_chainEpoch (i : HaltInfo) : (s.setRefused i).chainEpoch = s.chainEpoch := rfl
@[simp] theorem State.setRefused_delivered (i : HaltInfo) : (s.setRefused i).delivered = s.delivered := rfl
@[simp] theorem State.setRefused_grid (i : HaltInfo) : (s.setRefused i).grid = s.grid := rfl
@[simp] theorem State.setRefused_n (i : HaltInfo) : (s.setRefused i).n = s.n := rfl

/-! ### setFault -/

@[simp] theorem State.setFault_cols (i : HaltInfo) : (s.setFault i).cols = s.cols := rfl
@[simp] theorem State.setFault_rows (i : HaltInfo) : (s.setFault i).rows = s.rows := rfl
@[simp] theorem State.setFault_brightness (i : HaltInfo) : (s.setFault i).brightness = s.brightness := rfl
@[simp] theorem State.setFault_fb (i : HaltInfo) : (s.setFault i).fb = s.fb := rfl
@[simp] theorem State.setFault_refused (i : HaltInfo) : (s.setFault i).refused = s.refused := rfl
@[simp] theorem State.setFault_fault (i : HaltInfo) : (s.setFault i).fault = true := rfl
@[simp] theorem State.setFault_haltInfo (i : HaltInfo) : (s.setFault i).haltInfo = some i := rfl
@[simp] theorem State.setFault_out (i : HaltInfo) : (s.setFault i).out = s.out := rfl
@[simp] theorem State.setFault_resp (i : HaltInfo) : (s.setFault i).resp = s.resp := rfl
@[simp] theorem State.setFault_cpos (i : HaltInfo) : (s.setFault i).cpos = s.cpos := rfl
@[simp] theorem State.setFault_cfgArg (i : HaltInfo) : (s.setFault i).cfgArg = s.cfgArg := rfl
@[simp] theorem State.setFault_cmd (i : HaltInfo) : (s.setFault i).cmd = s.cmd := rfl
@[simp] theorem State.setFault_host (i : HaltInfo) : (s.setFault i).host = s.host := rfl
@[simp] theorem State.setFault_answers (i : HaltInfo) : (s.setFault i).answers = s.answers := rfl
@[simp] theorem State.setFault_draws (i : HaltInfo) : (s.setFault i).draws = s.draws := rfl
@[simp] theorem State.setFault_chain (i : HaltInfo) : (s.setFault i).chain = s.chain := rfl
@[simp] theorem State.setFault_chainEpoch (i : HaltInfo) : (s.setFault i).chainEpoch = s.chainEpoch := rfl
@[simp] theorem State.setFault_delivered (i : HaltInfo) : (s.setFault i).delivered = s.delivered := rfl
@[simp] theorem State.setFault_grid (i : HaltInfo) : (s.setFault i).grid = s.grid := rfl
@[simp] theorem State.setFault_n (i : HaltInfo) : (s.setFault i).n = s.n := rfl

/-! ### deliver -/

@[simp] theorem State.deliver_cols (i : Instr) (b : Burst) : (s.deliver i b).cols = s.cols := rfl
@[simp] theorem State.deliver_rows (i : Instr) (b : Burst) : (s.deliver i b).rows = s.rows := rfl
@[simp] theorem State.deliver_brightness (i : Instr) (b : Burst) : (s.deliver i b).brightness = s.brightness := rfl
@[simp] theorem State.deliver_fb (i : Instr) (b : Burst) : (s.deliver i b).fb = s.fb := rfl
@[simp] theorem State.deliver_refused (i : Instr) (b : Burst) : (s.deliver i b).refused = s.refused := rfl
@[simp] theorem State.deliver_fault (i : Instr) (b : Burst) : (s.deliver i b).fault = s.fault := rfl
@[simp] theorem State.deliver_haltInfo (i : Instr) (b : Burst) : (s.deliver i b).haltInfo = s.haltInfo := rfl
@[simp] theorem State.deliver_out (i : Instr) (b : Burst) : (s.deliver i b).out = s.out ++ [b] := rfl
@[simp] theorem State.deliver_resp (i : Instr) (b : Burst) : (s.deliver i b).resp = s.resp := rfl
@[simp] theorem State.deliver_cpos (i : Instr) (b : Burst) : (s.deliver i b).cpos = s.cpos := rfl
@[simp] theorem State.deliver_cfgArg (i : Instr) (b : Burst) : (s.deliver i b).cfgArg = s.cfgArg := rfl
@[simp] theorem State.deliver_cmd (i : Instr) (b : Burst) : (s.deliver i b).cmd = s.cmd := rfl
@[simp] theorem State.deliver_host (i : Instr) (b : Burst) : (s.deliver i b).host = s.host := rfl
@[simp] theorem State.deliver_answers (i : Instr) (b : Burst) : (s.deliver i b).answers = s.answers := rfl
@[simp] theorem State.deliver_draws (i : Instr) (b : Burst) : (s.deliver i b).draws = s.draws := rfl
@[simp] theorem State.deliver_chain (i : Instr) (b : Burst) : (s.deliver i b).chain = latchBurst s.n b s.chain := rfl
@[simp] theorem State.deliver_chainEpoch (i : Instr) (b : Burst) : (s.deliver i b).chainEpoch = s.chainEpoch := rfl
@[simp] theorem State.deliver_delivered (i : Instr) (b : Burst) : (s.deliver i b).delivered = s.delivered ++ [⟨i, b⟩] := rfl
@[simp] theorem State.deliver_grid (i : Instr) (b : Burst) : (s.deliver i b).grid = s.grid := rfl
@[simp] theorem State.deliver_n (i : Instr) (b : Burst) : (s.deliver i b).n = s.n := rfl

/-! ### afterDraws -/

@[simp] theorem State.afterDraws_cols (k : Nat) : (s.afterDraws k).cols = s.cols := rfl
@[simp] theorem State.afterDraws_rows (k : Nat) : (s.afterDraws k).rows = s.rows := rfl
@[simp] theorem State.afterDraws_brightness (k : Nat) : (s.afterDraws k).brightness = s.brightness := rfl
@[simp] theorem State.afterDraws_fb (k : Nat) : (s.afterDraws k).fb = s.fb := rfl
@[simp] theorem State.afterDraws_refused (k : Nat) : (s.afterDraws k).refused = s.refused := rfl
@[simp] theorem State.afterDraws_fault (k : Nat) : (s.afterDraws k).fault = s.fault := rfl
@[simp] theorem State.afterDraws_haltInfo (k : Nat) : (s.afterDraws k).haltInfo = s.haltInfo := rfl
@[simp] theorem State.afterDraws_out (k : Nat) : (s.afterDraws k).out = s.out := rfl
@[simp] theorem State.afterDraws_resp (k : Nat) : (s.afterDraws k).resp = s.resp := rfl
@[simp] theorem State.afterDraws_cpos (k : Nat) : (s.afterDraws k).cpos = s.cpos := rfl
@[simp] theorem State.afterDraws_cfgArg (k : Nat) : (s.afterDraws k).cfgArg = s.cfgArg := rfl
@[simp] theorem State.afterDraws_cmd (k : Nat) : (s.afterDraws k).cmd = s.cmd := rfl
@[simp] theorem State.afterDraws_host (k : Nat) : (s.afterDraws k).host = s.host := rfl
@[simp] theorem State.afterDraws_answers (k : Nat) : (s.afterDraws k).answers = s.answers.drop k := rfl
@[simp] theorem State.afterDraws_draws (k : Nat) : (s.afterDraws k).draws = s.draws + (k - s.answers.length) := rfl
@[simp] theorem State.afterDraws_chain (k : Nat) : (s.afterDraws k).chain = s.chain := rfl
@[simp] theorem State.afterDraws_chainEpoch (k : Nat) : (s.afterDraws k).chainEpoch = s.chainEpoch := rfl
@[simp] theorem State.afterDraws_delivered (k : Nat) : (s.afterDraws k).delivered = s.delivered := rfl
@[simp] theorem State.afterDraws_grid (k : Nat) : (s.afterDraws k).grid = s.grid := rfl
@[simp] theorem State.afterDraws_n (k : Nat) : (s.afterDraws k).n = s.n := rfl

/-! ### raiseFault -/

@[simp] theorem State.raiseFault_cols (b : Burst) : (s.raiseFault b).cols = s.cols := rfl
@[simp] theorem State.raiseFault_rows (b : Burst) : (s.raiseFault b).rows = s.rows := rfl
@[simp] theorem State.raiseFault_brightness (b : Burst) : (s.raiseFault b).brightness = s.brightness := rfl
@[simp] theorem State.raiseFault_fb (b : Burst) : (s.raiseFault b).fb = s.fb := rfl
@[simp] theorem State.raiseFault_refused (b : Burst) : (s.raiseFault b).refused = s.refused := rfl
@[simp] theorem State.raiseFault_fault (b : Burst) : (s.raiseFault b).fault = true := rfl
@[simp] theorem State.raiseFault_haltInfo (b : Burst) : (s.raiseFault b).haltInfo = some ⟨transportFailureCode, s.cpos, .burst b⟩ := rfl
@[simp] theorem State.raiseFault_out (b : Burst) : (s.raiseFault b).out = s.out := rfl
@[simp] theorem State.raiseFault_resp (b : Burst) : (s.raiseFault b).resp = s.resp := rfl
@[simp] theorem State.raiseFault_cpos (b : Burst) : (s.raiseFault b).cpos = s.cpos := rfl
@[simp] theorem State.raiseFault_cfgArg (b : Burst) : (s.raiseFault b).cfgArg = s.cfgArg := rfl
@[simp] theorem State.raiseFault_cmd (b : Burst) : (s.raiseFault b).cmd = s.cmd := rfl
@[simp] theorem State.raiseFault_host (b : Burst) : (s.raiseFault b).host = s.host := rfl
@[simp] theorem State.raiseFault_answers (b : Burst) : (s.raiseFault b).answers = s.answers := rfl
@[simp] theorem State.raiseFault_draws (b : Burst) : (s.raiseFault b).draws = s.draws := rfl
@[simp] theorem State.raiseFault_chain (b : Burst) : (s.raiseFault b).chain = [] := rfl
@[simp] theorem State.raiseFault_chainEpoch (b : Burst) : (s.raiseFault b).chainEpoch = s.chainEpoch + 1 := rfl
@[simp] theorem State.raiseFault_delivered (b : Burst) : (s.raiseFault b).delivered = [] := rfl
@[simp] theorem State.raiseFault_grid (b : Burst) : (s.raiseFault b).grid = s.grid := rfl
@[simp] theorem State.raiseFault_n (b : Burst) : (s.raiseFault b).n = s.n := rfl

/-! ### present -/

@[simp] theorem State.present_cols (ws : List Word) : (s.present ws).cols = s.cols := rfl
@[simp] theorem State.present_rows (ws : List Word) : (s.present ws).rows = s.rows := rfl
@[simp] theorem State.present_brightness (ws : List Word) : (s.present ws).brightness = s.brightness := rfl
@[simp] theorem State.present_fb (ws : List Word) : (s.present ws).fb = s.fb := rfl
@[simp] theorem State.present_refused (ws : List Word) : (s.present ws).refused = s.refused := rfl
@[simp] theorem State.present_fault (ws : List Word) : (s.present ws).fault = s.fault := rfl
@[simp] theorem State.present_haltInfo (ws : List Word) : (s.present ws).haltInfo = s.haltInfo := rfl
@[simp] theorem State.present_out (ws : List Word) : (s.present ws).out = s.out := rfl
@[simp] theorem State.present_resp (ws : List Word) : (s.present ws).resp = s.resp := rfl
@[simp] theorem State.present_cpos (ws : List Word) : (s.present ws).cpos = s.cpos := rfl
@[simp] theorem State.present_cfgArg (ws : List Word) : (s.present ws).cfgArg = s.cfgArg := rfl
@[simp] theorem State.present_cmd (ws : List Word) : (s.present ws).cmd = s.cmd ++ ws := rfl
@[simp] theorem State.present_host (ws : List Word) : (s.present ws).host = s.host := rfl
@[simp] theorem State.present_answers (ws : List Word) : (s.present ws).answers = s.answers := rfl
@[simp] theorem State.present_draws (ws : List Word) : (s.present ws).draws = s.draws := rfl
@[simp] theorem State.present_chain (ws : List Word) : (s.present ws).chain = s.chain := rfl
@[simp] theorem State.present_chainEpoch (ws : List Word) : (s.present ws).chainEpoch = s.chainEpoch := rfl
@[simp] theorem State.present_delivered (ws : List Word) : (s.present ws).delivered = s.delivered := rfl
@[simp] theorem State.present_grid (ws : List Word) : (s.present ws).grid = s.grid := rfl
@[simp] theorem State.present_n (ws : List Word) : (s.present ws).n = s.n := rfl

/-! ### refuse -/

@[simp] theorem State.refuse_cols (r : RefuseReason) : (s.refuse r).cols = s.cols := rfl
@[simp] theorem State.refuse_rows (r : RefuseReason) : (s.refuse r).rows = s.rows := rfl
@[simp] theorem State.refuse_brightness (r : RefuseReason) : (s.refuse r).brightness = s.brightness := rfl
@[simp] theorem State.refuse_fb (r : RefuseReason) : (s.refuse r).fb = s.fb := rfl
@[simp] theorem State.refuse_refused (r : RefuseReason) : (s.refuse r).refused = true := rfl
@[simp] theorem State.refuse_fault (r : RefuseReason) : (s.refuse r).fault = s.fault := rfl
@[simp] theorem State.refuse_out (r : RefuseReason) : (s.refuse r).out = s.out := rfl
@[simp] theorem State.refuse_resp (r : RefuseReason) : (s.refuse r).resp = s.resp := rfl
@[simp] theorem State.refuse_cpos (r : RefuseReason) : (s.refuse r).cpos = s.cpos := rfl
@[simp] theorem State.refuse_cfgArg (r : RefuseReason) : (s.refuse r).cfgArg = s.cfgArg := rfl
@[simp] theorem State.refuse_cmd (r : RefuseReason) : (s.refuse r).cmd = s.cmd := rfl
@[simp] theorem State.refuse_host (r : RefuseReason) : (s.refuse r).host = s.host := rfl
@[simp] theorem State.refuse_answers (r : RefuseReason) : (s.refuse r).answers = s.answers := rfl
@[simp] theorem State.refuse_draws (r : RefuseReason) : (s.refuse r).draws = s.draws := rfl
@[simp] theorem State.refuse_chain (r : RefuseReason) : (s.refuse r).chain = s.chain := rfl
@[simp] theorem State.refuse_chainEpoch (r : RefuseReason) : (s.refuse r).chainEpoch = s.chainEpoch := rfl
@[simp] theorem State.refuse_delivered (r : RefuseReason) : (s.refuse r).delivered = s.delivered := rfl
@[simp] theorem State.refuse_grid (r : RefuseReason) : (s.refuse r).grid = s.grid := rfl
@[simp] theorem State.refuse_n (r : RefuseReason) : (s.refuse r).n = s.n := rfl

/-! ### resetBlock -/

@[simp] theorem State.resetBlock_cols (ws : List Word) : (s.resetBlock ws).cols = loadCols s.cfgArg := rfl
@[simp] theorem State.resetBlock_rows (ws : List Word) : (s.resetBlock ws).rows = loadRows s.cfgArg := rfl
@[simp] theorem State.resetBlock_brightness (ws : List Word) : (s.resetBlock ws).brightness = loadBrightness s.cfgArg := rfl
@[simp] theorem State.resetBlock_fb (ws : List Word) : (s.resetBlock ws).fb = [] := rfl
@[simp] theorem State.resetBlock_refused (ws : List Word) : (s.resetBlock ws).refused = !configLegal s.cfgArg := rfl
@[simp] theorem State.resetBlock_fault (ws : List Word) : (s.resetBlock ws).fault = false := rfl
@[simp] theorem State.resetBlock_out (ws : List Word) : (s.resetBlock ws).out = [] := rfl
@[simp] theorem State.resetBlock_resp (ws : List Word) : (s.resetBlock ws).resp = [] := rfl
@[simp] theorem State.resetBlock_cpos (ws : List Word) : (s.resetBlock ws).cpos = 0 := rfl
@[simp] theorem State.resetBlock_cfgArg (ws : List Word) : (s.resetBlock ws).cfgArg = s.cfgArg := rfl
@[simp] theorem State.resetBlock_cmd (ws : List Word) : (s.resetBlock ws).cmd = ws := rfl
@[simp] theorem State.resetBlock_host (ws : List Word) : (s.resetBlock ws).host = s.host := rfl
@[simp] theorem State.resetBlock_answers (ws : List Word) : (s.resetBlock ws).answers = s.answers := rfl
@[simp] theorem State.resetBlock_draws (ws : List Word) : (s.resetBlock ws).draws = s.draws := rfl
@[simp] theorem State.resetBlock_chain (ws : List Word) : (s.resetBlock ws).chain = s.chain := rfl
@[simp] theorem State.resetBlock_chainEpoch (ws : List Word) : (s.resetBlock ws).chainEpoch = s.chainEpoch := rfl
@[simp] theorem State.resetBlock_delivered (ws : List Word) : (s.resetBlock ws).delivered = s.delivered := rfl

end Sys2Proof.Machine
end

