-- ==== Sys2Proof/Laws/Cells.lean ====
section
/-! SUPPORT. Cells: a read after a write, and that every memory operation keeps the canonical form. -/

namespace Sys2Proof.Machine

/-! ### Read after write -/

@[simp] theorem cellsRead_write (m : List Host.Cell) (a b : Nat) (v : Byte) :
    cellsRead (cellsWrite m a v) b = if b = a then some v else cellsRead m b := by
  induction m with
  | nil => simp [cellsWrite, cellsRead]
  | cons c rest ih =>
    obtain ⟨k, w⟩ := c
    unfold cellsWrite
    split
    · simp [cellsRead]
    · split
      · subst_vars; simp only [cellsRead]; split <;> rfl
      · simp only [cellsRead, ih]; split <;> split <;> first | rfl | omega

@[simp] theorem cellsRead_erase (m : List Host.Cell) (a b : Nat) :
    cellsRead (cellsErase m a) b = if b = a then none else cellsRead m b := by
  induction m with
  | nil => simp [cellsErase, cellsRead]
  | cons c rest ih =>
    obtain ⟨k, w⟩ := c
    unfold cellsErase
    split
    · subst_vars; rw [ih]; simp only [cellsRead]; split <;> rfl
    · simp only [cellsRead, ih]; split <;> split <;> first | rfl | omega

@[simp] theorem fbRead_fbWrite (m : List Host.Cell) (a b : Nat) (v : Byte) :
    fbRead (fbWrite m a v) b = if b = a then v else fbRead m b := by
  unfold fbRead fbWrite
  split
  · subst_vars; simp; split <;> rfl
  · simp; split <;> rfl

@[simp] theorem fbRead_nil (a : Nat) : fbRead [] a = fbUnlisted := rfl

/-! ### Canonical form -/

theorem mem_cellsWrite {m : List Host.Cell} {a : Nat} {v : Byte} {c : Host.Cell} (h : c ∈ cellsWrite m a v) :
    c = (a, v) ∨ c ∈ m := by
  induction m with
  | nil => simpa [cellsWrite] using h
  | cons d rest ih =>
    unfold cellsWrite at h
    split at h
    · simpa using h
    · split at h
      · rcases List.mem_cons.1 h with h | h
        · exact .inl h
        · exact .inr (List.mem_cons_of_mem _ h)
      · rcases List.mem_cons.1 h with h | h
        · exact .inr (by simp [h])
        · exact (ih h).imp_right (List.mem_cons_of_mem _)

theorem mem_cellsErase {m : List Host.Cell} {a : Nat} {c : Host.Cell} (h : c ∈ cellsErase m a) : c ∈ m := by
  induction m with
  | nil => exact h
  | cons d rest ih =>
    unfold cellsErase at h
    split at h
    · exact List.mem_cons_of_mem _ (ih h)
    · rcases List.mem_cons.1 h with h | h
      · simp [h]
      · exact List.mem_cons_of_mem _ (ih h)

theorem cellsWrite_sorted {m : List Host.Cell} (a : Nat) (v : Byte) (h : Memory.sorted m) :
    Memory.sorted (cellsWrite m a v) := by
  induction m with
  | nil => simp [cellsWrite, Memory.sorted]
  | cons d rest ih =>
    obtain ⟨k, w⟩ := d
    obtain ⟨hk, hr⟩ := List.pairwise_cons.1 h
    unfold cellsWrite
    split
    case isTrue lt =>
      refine List.pairwise_cons.2 ⟨fun c hc => ?_, h⟩
      rcases List.mem_cons.1 hc with rfl | hc
      · exact lt
      · exact Nat.lt_trans lt (hk c hc)
    case isFalse ge =>
      split
      case isTrue eq => subst eq; exact List.pairwise_cons.2 ⟨hk, hr⟩
      case isFalse ne =>
        refine List.pairwise_cons.2 ⟨fun c hc => ?_, ih hr⟩
        rcases mem_cellsWrite hc with rfl | hc
        · show k < a; omega
        · exact hk c hc

theorem cellsErase_sorted {m : List Host.Cell} (a : Nat) (h : Memory.sorted m) : Memory.sorted (cellsErase m a) := by
  induction m with
  | nil => exact h
  | cons d rest ih =>
    obtain ⟨hk, hr⟩ := List.pairwise_cons.1 h
    unfold cellsErase
    split
    · exact ih hr
    · exact List.pairwise_cons.2 ⟨fun c hc => hk c (mem_cellsErase hc), ih hr⟩

/-- A storage write keeps the canonical form. -/
theorem fbWrite_wf {m : List Host.Cell} (a : Nat) (v : Byte) (h : Memory.wf m) : Memory.wf (fbWrite m a v) := by
  unfold fbWrite
  split
  · exact ⟨cellsErase_sorted a h.1, fun c hc => h.2 c (mem_cellsErase hc)⟩
  · refine ⟨cellsWrite_sorted a v h.1, fun c hc => ?_⟩
    rcases mem_cellsWrite hc with rfl | hc
    · assumption
    · exact h.2 c hc

/-- The cells after a storage write: the old ones and the one written. -/
theorem mem_fbWrite {m : List Host.Cell} {a : Nat} {v : Byte} {c : Host.Cell} (h : c ∈ fbWrite m a v) :
    c = (a, v) ∨ c ∈ m := by
  unfold fbWrite at h
  split at h
  · exact .inr (mem_cellsErase h)
  · exact mem_cellsWrite h

/-! ### Canonical lists are determined by their reads -/

theorem cellsRead_of_mem {m : List Host.Cell} (h : Memory.sorted m) {c : Host.Cell} (hc : c ∈ m) :
    cellsRead m c.1 = some c.2 := by
  induction m with
  | nil => simp at hc
  | cons d rest ih =>
    obtain ⟨hk, hr⟩ := List.pairwise_cons.1 h
    obtain ⟨k, w⟩ := d
    rcases List.mem_cons.1 hc with rfl | hc
    · simp [cellsRead]
    · have := hk c hc
      have ne : c.1 ≠ k := by simp at this; omega
      simp [cellsRead, ne, ih hr hc]

theorem mem_of_cellsRead {m : List Host.Cell} {a : Nat} {v : Byte} (h : cellsRead m a = some v) : (a, v) ∈ m := by
  induction m with
  | nil => simp [cellsRead] at h
  | cons d rest ih =>
    obtain ⟨k, w⟩ := d
    unfold cellsRead at h
    split at h
    · simp at h; subst_vars; simp
    · exact List.mem_cons_of_mem _ (ih h)

theorem sorted_ext {m m' : List Host.Cell} (h : Memory.sorted m) (h' : Memory.sorted m')
    (hm : ∀ a, cellsRead m a = cellsRead m' a) : m = m' := by
  have key : ∀ c, c ∈ m ↔ c ∈ m' := fun c =>
    ⟨fun hc => by simpa using mem_of_cellsRead ((hm c.1) ▸ cellsRead_of_mem h hc),
      fun hc => by simpa using mem_of_cellsRead ((hm c.1).symm ▸ cellsRead_of_mem h' hc)⟩
  have nd : ∀ {l : List Host.Cell}, Memory.sorted l → l.Nodup := fun hl =>
    hl.imp (fun {p q} hpq e => by subst e; exact Nat.lt_irrefl _ hpq)
  exact List.Perm.eq_of_pairwise (fun a b _ _ hab hba => absurd (Nat.lt_trans hab hba) (Nat.lt_irrefl _)) h h'
    ((List.perm_ext_iff_of_nodup (nd h) (nd h')).2 key)

/-- Two canonical storage lists that read alike everywhere are equal. -/
theorem wf_ext {m m' : List Host.Cell} (h : Memory.wf m) (h' : Memory.wf m')
    (hm : ∀ a, fbRead m a = fbRead m' a) : m = m' := by
  refine sorted_ext h.1 h'.1 (fun a => ?_)
  have := hm a
  unfold fbRead at this
  cases e : cellsRead m a with
  | none =>
    cases e' : cellsRead m' a with
    | none => rfl
    | some v => rw [e, e'] at this; exact absurd this.symm (h'.2 _ (mem_of_cellsRead e'))
  | some v =>
    cases e' : cellsRead m' a with
    | none => rw [e, e'] at this; exact absurd this (h.2 _ (mem_of_cellsRead e))
    | some w => rw [e, e'] at this; simpa using this

end Sys2Proof.Machine
end

