-- ==== Sys2Proof/Laws/Addressing.lean ====
section
/-! SUPPORT. The address decoder: what it answers, that its addresses are inside the storage, and its inverse. -/

namespace Sys2Proof.Machine

@[simp] theorem State.grid_cols (s : State) : s.grid.cols = s.cols.toNat := rfl
@[simp] theorem State.grid_rows (s : State) : s.grid.rows = s.rows.toNat := rfl
theorem State.n_eq (s : State) : s.n = s.cols.toNat * s.rows.toNat := rfl

theorem chipIndex_eq {g : Grid} {cc cr : Nat} (hc : cc < g.cols) (hr : cr < g.rows) :
    chipIndex g cc cr = some (cr + cc * g.rows) := by simp [chipIndex, hc, hr]

theorem chipIndex_lt {g : Grid} {cc cr : Nat} (hc : cc < g.cols) (hr : cr < g.rows) :
    cr + cc * g.rows < gridN g := by
  unfold gridN
  calc cr + cc * g.rows < g.rows + cc * g.rows := by omega
    _ = (cc + 1) * g.rows := by ring
    _ ≤ g.cols * g.rows := Nat.mul_le_mul_right _ hc

/-- The decoder of an in-range pixel. -/
theorem decodePixel_eq {g : Grid} {x y : Nat} (hx : x < gridW g) (hy : y < gridH g) :
    decodePixel g x y = some ⟨y / 8 + x / 8 * g.rows, x % 8, y % 8⟩ := by
  have hc : x / 8 < g.cols := by unfold gridW at hx; omega
  have hr : y / 8 < g.rows := by unfold gridH at hy; omega
  simp [decodePixel, pixelToChip, chipIndex_eq hc hr, Nat.not_le.2 hx, Nat.not_le.2 hy]

/-- The decoder of an out-of-range pixel. -/
theorem decodePixel_none {g : Grid} {x y : Nat} (h : ¬(x < gridW g ∧ y < gridH g)) : decodePixel g x y = none := by
  have : x ≥ gridW g ∨ y ≥ gridH g := by omega
  simp [decodePixel, this]

/-- What an answer of the decoder says. -/
theorem decodePixel_some {g : Grid} {x y : Nat} {d : PixelAddr} (h : decodePixel g x y = some d) :
    x < gridW g ∧ y < gridH g ∧ d = ⟨y / 8 + x / 8 * g.rows, x % 8, y % 8⟩ := by
  by_cases hr : x < gridW g ∧ y < gridH g
  · rw [decodePixel_eq hr.1 hr.2] at h
    exact ⟨hr.1, hr.2, (Option.some.inj h).symm⟩
  · rw [decodePixel_none hr] at h; exact absurd h (by simp)

theorem decodePixel_chip_lt {g : Grid} {x y : Nat} {d : PixelAddr} (h : decodePixel g x y = some d) :
    d.chip < gridN g ∧ d.column < 8 ∧ d.bit < 8 := by
  obtain ⟨hx, hy, rfl⟩ := decodePixel_some h
  refine ⟨chipIndex_lt ?_ ?_, Nat.mod_lt _ (by decide), Nat.mod_lt _ (by decide)⟩
  · unfold gridW at hx; omega
  · unfold gridH at hy; omega

/-- Every storage address of the decoder is inside the storage (40_addressing R114, 20_memory R51). -/
theorem storeAddr_lt {g : Grid} {x y : Nat} {d : PixelAddr} (h : decodePixel g x y = some d) :
    storeAddr d.chip d.column < 8 * gridN g := by
  have := decodePixel_chip_lt h
  unfold storeAddr; omega

theorem storeAddr_inj {ci lc ci' lc' : Nat} (h : lc < 8) (h' : lc' < 8) (e : storeAddr ci lc = storeAddr ci' lc') :
    ci = ci' ∧ lc = lc' := by unfold storeAddr at e; omega

/-- The decoder's inverse gives the pixel back (40_addressing R117). -/
theorem pixelOfBit_decode {g : Grid} {x y : Nat} {d : PixelAddr} (h : decodePixel g x y = some d) :
    pixelOfBit g (storeAddr d.chip d.column) d.bit = (x, y) := by
  obtain ⟨hx, hy, rfl⟩ := decodePixel_some h
  have hr : y / 8 < g.rows := by unfold gridH at hy; omega
  have e1 : (8 * (y / 8 + x / 8 * g.rows) + x % 8) / 8 = y / 8 + x / 8 * g.rows := by omega
  have e2 : (8 * (y / 8 + x / 8 * g.rows) + x % 8) % 8 = x % 8 := by omega
  have e3 : (y / 8 + x / 8 * g.rows) / g.rows = x / 8 := by
    rw [Nat.add_mul_div_right _ _ (by omega), Nat.div_eq_of_lt hr, Nat.zero_add]
  have e4 : (y / 8 + x / 8 * g.rows) % g.rows = y / 8 := by
    rw [Nat.add_mul_mod_self_right, Nat.mod_eq_of_lt hr]
  simp only [pixelOfBit, chipOfIndex, storeAddr, e1, e2, e3, e4]
  simp only [Prod.mk.injEq]; omega

/-- Two pixels decoded to one storage bit are one pixel (40_addressing R116). -/
theorem decodePixel_inj {g : Grid} {x y x' y' : Nat} {d d' : PixelAddr} (h : decodePixel g x y = some d)
    (h' : decodePixel g x' y' = some d') (ea : storeAddr d.chip d.column = storeAddr d'.chip d'.column)
    (eb : d.bit = d'.bit) : x = x' ∧ y = y' := by
  have e := pixelOfBit_decode h
  rw [ea, eb, pixelOfBit_decode h'] at e
  simp at e; omega

/-- Every bit of the storage is a pixel's (40_addressing R116, R117). -/
theorem decode_pixelOfBit {g : Grid} {a b : Nat} (ha : a < 8 * gridN g) (hb : b < 8) :
    decodePixel g (pixelOfBit g a b).1 (pixelOfBit g a b).2 = some ⟨a / 8, a % 8, b⟩ := by
  have hn : a / 8 < g.cols * g.rows := by unfold gridN at ha; omega
  have hr : 0 < g.rows := Nat.pos_of_ne_zero (by rintro h; simp [h] at hn)
  have hcc : a / 8 / g.rows < g.cols := Nat.div_lt_of_lt_mul (by rwa [Nat.mul_comm] at hn)
  have hcr : a / 8 % g.rows < g.rows := Nat.mod_lt _ hr
  have hx : a / 8 / g.rows * 8 + a % 8 < gridW g := by unfold gridW; omega
  have hy : a / 8 % g.rows * 8 + b < gridH g := by unfold gridH; omega
  have e := Nat.div_add_mod (a / 8) g.rows
  rw [Nat.mul_comm] at e
  simp only [pixelOfBit, chipOfIndex]
  rw [decodePixel_eq hx hy]
  have e1 : (a / 8 % g.rows * 8 + b) / 8 = a / 8 % g.rows := by omega
  have e2 : (a / 8 / g.rows * 8 + a % 8) / 8 = a / 8 / g.rows := by omega
  rw [e1, e2]
  simp only [Option.some.injEq, PixelAddr.mk.injEq]; omega

/-! ### Bits of a byte -/

theorem getLsbD_setBit (v : Byte) (i j : Nat) (b : Bool) (hi : i < 8) :
    (setBit v i b).getLsbD j = if j = i then b else v.getLsbD j := by
  unfold setBit
  by_cases hj : j < 8
  · split <;> split <;> simp_all
  · have : j ≠ i := by omega
    simp [this, BitVec.getLsbD_of_ge _ _ (Nat.not_lt.1 hj)]

theorem getLsbD_fillByte (v : Byte) (st : PixelState) (j : Nat) (hj : j < 8) :
    (fillByte v st).getLsbD j = applyState (v.getLsbD j) st := by
  cases st
  · simp [fillByte, applyState]
  · have : ∀ j : Fin 8, (0xFF#8).getLsbD j.val = true := by decide
    simpa [fillByte, applyState] using this ⟨j, hj⟩
  · have : ∀ j : Fin 8, (0xFF#8).getLsbD j.val = true := by decide
    have e := this ⟨j, hj⟩
    simp only [fillByte, applyState, BitVec.getLsbD_xor, e, Bool.xor_true]

/-! ### FILL_REGION's pixels -/

theorem mem_regionPixels {g : Grid} {x0 y0 w h x y : Nat} :
    (x, y) ∈ regionPixels g x0 y0 w h ↔
      (x0 ≤ x ∧ x < x0 + w ∧ x < gridW g) ∧ (y0 ≤ y ∧ y < y0 + h ∧ y < gridH g) := by
  simp only [regionPixels, List.mem_flatMap, List.mem_map, List.mem_range'_1, Prod.mk.injEq]
  constructor
  · rintro ⟨a, ha, b, hb, rfl, rfl⟩; omega
  · rintro ⟨hx, hy⟩; exact ⟨x, by omega, y, by omega, rfl, rfl⟩

theorem regionPixels_nodup (g : Grid) (x0 y0 w h : Nat) : (regionPixels g x0 y0 w h).Nodup := by
  unfold regionPixels
  refine List.nodup_flatMap.2 ⟨fun x _ => ?_, ?_⟩
  · exact (List.nodup_range').map (fun a b e => by simpa using e)
  · refine (List.nodup_range' (step := 1)).imp (fun {a b} hab => ?_)
    intro p hp hq
    simp only [List.mem_map] at hp hq
    obtain ⟨_, _, rfl⟩ := hp
    obtain ⟨_, _, e⟩ := hq
    simp at e; exact hab e.1.symm

end Sys2Proof.Machine
end

