-- ==== Sys2Proof/Laws/Storage.lean ====
section
/-! SUPPORT. Storage operations in total form: no command accesses storage outside `0 .. 8N-1` (20_memory R51), so
each comes down to a change of the storage list. -/

namespace Sys2Proof.Machine

/-- The state with another storage list. -/
def State.withFb (s : State) (m : List Host.Cell) : State := { s with fb := m }

@[simp] theorem State.withFb_fb (s : State) (m : List Host.Cell) : (s.withFb m).fb = m := rfl
@[simp] theorem State.withFb_grid (s : State) (m : List Host.Cell) : (s.withFb m).grid = s.grid := rfl
@[simp] theorem State.withFb_n (s : State) (m : List Host.Cell) : (s.withFb m).n = s.n := rfl
@[simp] theorem State.withFb_withFb (s : State) (m m' : List Host.Cell) : (s.withFb m).withFb m' = s.withFb m' := rfl
@[simp] theorem State.withFb_self (s : State) : s.withFb s.fb = s := rfl

theorem State.memRead_eq {s : State} {a : Nat} (h : a < 8 * s.n) : s.memRead a = some (fbRead s.fb a) := by
  simp [State.memRead, h]

theorem State.memWrite_eq {s : State} {a : Nat} (h : a < 8 * s.n) (v : Byte) :
    s.memWrite a v = some (s.withFb (fbWrite s.fb a v)) := by
  simp [State.memWrite, State.withFb, h]

/-- The storage list after a state is applied to one pixel. -/
def fbPixel (g : Grid) (st : PixelState) (m : List Host.Cell) (p : Nat × Nat) : List Host.Cell :=
  match decodePixel g p.1 p.2 with
  | none => m
  | some d =>
    fbWrite m (storeAddr d.chip d.column)
      (setBit (fbRead m (storeAddr d.chip d.column)) d.bit
        (applyState ((fbRead m (storeAddr d.chip d.column)).getLsbD d.bit) st))

/-- One pixel write always completes. -/
theorem pixelWrite_eq (s : State) (x y : Nat) (st : PixelState) :
    s.pixelWrite x y st = some (s.withFb (fbPixel s.grid st s.fb (x, y))) := by
  unfold State.pixelWrite fbPixel
  cases h : decodePixel s.grid x y with
  | none => simp
  | some d =>
    have hlt : storeAddr d.chip d.column < 8 * s.n := storeAddr_lt h
    simp [State.memRead_eq hlt, State.memWrite_eq hlt]

/-- Pixel writes, each of a list, always complete. -/
theorem pixelsWrite_eq (s : State) (ps : List (Nat × Nat)) (st : PixelState) :
    s.pixelsWrite ps st = some (s.withFb (ps.foldl (fbPixel s.grid st) s.fb)) := by
  induction ps generalizing s with
  | nil => simp [State.pixelsWrite]
  | cons p rest ih => simp [State.pixelsWrite, pixelWrite_eq, ih]

/-- The storage list after a state is applied to one byte. -/
def fbFill (st : PixelState) (m : List Host.Cell) (a : Nat) : List Host.Cell :=
  fbWrite m a (fillByte (fbRead m a) st)

/-- Filling bytes inside the storage always completes. -/
theorem fillBytes_eq (s : State) (as : List Nat) (st : PixelState) (h : ∀ a ∈ as, a < 8 * s.n) :
    s.fillBytes as st = some (s.withFb (as.foldl (fbFill st) s.fb)) := by
  induction as generalizing s with
  | nil => simp [State.fillBytes]
  | cons a rest ih =>
    have ha : a < 8 * s.n := h a (by simp)
    have hr : ∀ b ∈ rest, b < 8 * s.n := fun b hb => h b (by simp [hb])
    rw [State.fillBytes, State.memRead_eq ha]
    simp only [State.memWrite_eq ha, List.foldl_cons]
    exact ih (s.withFb _) hr

theorem allSome_map_some {α β : Type} (l : List α) (f : α → β) :
    allSome (l.map (fun a => some (f a))) = some (l.map f) := by
  induction l with
  | nil => rfl
  | cons a rest ih => simp [allSome, ih]

/-- RENDER's bursts in total form (43_renderer R170, R171). -/
theorem renderBursts_eq (s : State) :
    s.renderBursts = some ((List.range 8).map (fun k => columnBurst s.n k (fun ci => fbRead s.fb (storeAddr ci k)))) := by
  unfold State.renderBursts
  rw [← allSome_map_some]
  congr 1
  refine List.map_congr_left (fun k hk => ?_)
  have hk : k < 8 := List.mem_range.1 hk
  unfold State.renderBurst columnBurst burstOf
  rw [List.flatMap_def, ← Option.map_some (f := List.flatten), ← allSome_map_some]
  congr 2
  refine List.map_congr_left (fun p hp => ?_)
  have hp : p < s.n := List.mem_range.1 hp
  have : storeAddr (s.n - 1 - p) k < 8 * s.n := by unfold storeAddr; omega
  simp [State.colByte, State.memRead_eq this]

/-! ### What the pixel writes do to the pixels -/

/-- The pixel a storage list holds at `(x, y)` of a grid. -/
def fbPixelAt (g : Grid) (m : List Host.Cell) (x y : Nat) : Option Bool :=
  (decodePixel g x y).map (fun d => (fbRead m (storeAddr d.chip d.column)).getLsbD d.bit)

theorem State.pixel_eq (s : State) (x y : Nat) : s.pixel x y = fbPixelAt s.grid s.fb x y := rfl

theorem fbPixelAt_fbPixel (g : Grid) (st : PixelState) (m : List Host.Cell) (p : Nat × Nat) (x y : Nat) :
    fbPixelAt g (fbPixel g st m p) x y =
      (fbPixelAt g m x y).map (fun b => if p = (x, y) then applyState b st else b) := by
  unfold fbPixelAt fbPixel
  cases h : decodePixel g x y with
  | none => simp
  | some d =>
    cases hp : decodePixel g p.1 p.2 with
    | none =>
      have : p ≠ (x, y) := by rintro rfl; simp [h] at hp
      simp [this]
    | some d' =>
      by_cases e : p = (x, y)
      · subst e
        obtain rfl : d = d' := by simpa [h] using hp
        simp [getLsbD_setBit _ _ _ _ (decodePixel_chip_lt h).2.2]
      · simp only [fbRead_fbWrite, Option.map_some, e, if_false]
        split
        case isFalse => rfl
        case isTrue ea =>
          rw [getLsbD_setBit _ _ _ _ (decodePixel_chip_lt hp).2.2, if_neg, ea]
          intro eb
          exact e (Prod.ext (decodePixel_inj hp h ea.symm eb.symm).1 (decodePixel_inj hp h ea.symm eb.symm).2)

theorem fbPixelAt_foldl (g : Grid) (st : PixelState) (ps : List (Nat × Nat)) (hn : ps.Nodup) (m : List Host.Cell)
    (x y : Nat) :
    fbPixelAt g (ps.foldl (fbPixel g st) m) x y =
      (fbPixelAt g m x y).map (fun b => if (x, y) ∈ ps then applyState b st else b) := by
  induction ps generalizing m with
  | nil => simp
  | cons p rest ih =>
    obtain ⟨hp, hr⟩ := List.nodup_cons.1 hn
    rw [List.foldl_cons, ih hr, fbPixelAt_fbPixel, Option.map_map]
    congr 1; funext b
    by_cases e : p = (x, y)
    · subst e; simp [hp]
    · have e' : (x, y) ≠ p := fun h => e h.symm
      simp [e, e']

/-- Bytes outside the storage are never written. -/
theorem fbRead_fbPixel_outside (g : Grid) (st : PixelState) (m : List Host.Cell) (p : Nat × Nat) (a : Nat)
    (ha : 8 * gridN g ≤ a) : fbRead (fbPixel g st m p) a = fbRead m a := by
  unfold fbPixel
  cases h : decodePixel g p.1 p.2 with
  | none => rfl
  | some d =>
    have := storeAddr_lt h
    simp; omega

theorem fbRead_foldl_outside (g : Grid) (st : PixelState) (ps : List (Nat × Nat)) (m : List Host.Cell) (a : Nat)
    (ha : 8 * gridN g ≤ a) : fbRead (ps.foldl (fbPixel g st) m) a = fbRead m a := by
  induction ps generalizing m with
  | nil => rfl
  | cons p rest ih => rw [List.foldl_cons, ih, fbRead_fbPixel_outside g st m p a ha]

theorem fbRead_foldl_fill (st : PixelState) (as : List Nat) (hn : as.Nodup) (m : List Host.Cell) (a : Nat) :
    fbRead (as.foldl (fbFill st) m) a = if a ∈ as then fillByte (fbRead m a) st else fbRead m a := by
  induction as generalizing m with
  | nil => simp
  | cons b rest ih =>
    obtain ⟨hb, hr⟩ := List.nodup_cons.1 hn
    rw [List.foldl_cons, ih hr]
    by_cases e : a = b
    · subst e; simp [hb, fbFill]
    · simp [e, fbFill]

/-- Two storages of one grid with the same pixels hold the same bytes inside. -/
theorem fbRead_eq_of_pixels {g : Grid} {m m' : List Host.Cell}
    (h : ∀ x y, fbPixelAt g m x y = fbPixelAt g m' x y) (a : Nat) (ha : a < 8 * gridN g) :
    fbRead m a = fbRead m' a := by
  refine BitVec.eq_of_getLsbD_eq (fun b hb => ?_)
  have e := h (pixelOfBit g a b).1 (pixelOfBit g a b).2
  simp only [fbPixelAt, decode_pixelOfBit ha hb, Option.map_some, storeAddr, Option.some.injEq] at e
  rwa [Nat.div_add_mod] at e

/-! ### Canonical form -/

theorem fbPixel_wf (g : Grid) (st : PixelState) {m : List Host.Cell} (p : Nat × Nat) (h : Memory.wf m) :
    Memory.wf (fbPixel g st m p) := by
  unfold fbPixel
  split
  · exact h
  · exact fbWrite_wf _ _ h

theorem foldl_fbPixel_wf (g : Grid) (st : PixelState) (ps : List (Nat × Nat)) {m : List Host.Cell}
    (h : Memory.wf m) : Memory.wf (ps.foldl (fbPixel g st) m) := by
  induction ps generalizing m with
  | nil => exact h
  | cons p rest ih => exact ih (fbPixel_wf g st p h)

theorem foldl_fbFill_wf (st : PixelState) (as : List Nat) {m : List Host.Cell} (h : Memory.wf m) :
    Memory.wf (as.foldl (fbFill st) m) := by
  induction as generalizing m with
  | nil => exact h
  | cons a rest ih => exact ih (fbWrite_wf _ _ h)

/-- MemWrite keeps the canonical form. -/
theorem memWrite_wf {s t : State} {a : Nat} {v : Byte} (h : s.memWrite a v = some t) (hs : Memory.wf s.fb) :
    Memory.wf t.fb := by
  unfold State.memWrite at h
  split at h
  · simp at h; subst h; exact fbWrite_wf _ _ hs
  · simp at h

theorem foldl_fbPixel_bound (g : Grid) (st : PixelState) (ps : List (Nat × Nat)) {m : List Host.Cell}
    (h : ∀ c ∈ m, c.1 < 8 * gridN g) : ∀ c ∈ ps.foldl (fbPixel g st) m, c.1 < 8 * gridN g := by
  induction ps generalizing m with
  | nil => exact h
  | cons p rest ih =>
    refine ih (fun c hc => ?_)
    unfold fbPixel at hc
    split at hc
    · exact h c hc
    · rename_i d hd
      rcases mem_fbWrite hc with rfl | hc
      · exact storeAddr_lt hd
      · exact h c hc

theorem foldl_fbFill_bound (n : Nat) (st : PixelState) (as : List Nat) (ha : ∀ a ∈ as, a < n) {m : List Host.Cell}
    (h : ∀ c ∈ m, c.1 < n) : ∀ c ∈ as.foldl (fbFill st) m, c.1 < n := by
  induction as generalizing m with
  | nil => exact h
  | cons a rest ih =>
    refine ih (fun b hb => ha b (by simp [hb])) (fun c hc => ?_)
    rcases mem_fbWrite hc with rfl | hc
    · exact ha a (by simp)
    · exact h c hc

/-! ### The pixel commands in total form -/

theorem execGet_eq (x y : Word) (s : State) :
    execGet x y s = .next ((s.respond ((s.pixel x.toNat y.toNat).getD false)).advance 3) := by
  unfold execGet State.pixel
  cases h : decodePixel s.grid x.toNat y.toNat with
  | none => simp
  | some d =>
    have hlt : storeAddr d.chip d.column < 8 * s.n := storeAddr_lt h
    simp [State.memRead_eq hlt]

theorem execSet_eq (st : PixelState) (x y : Word) (s : State) :
    execSet st x y s = .next ((s.withFb (fbPixel s.grid st s.fb (x.toNat, y.toNat))).advance 3) := by
  simp [execSet, finish, pixelWrite_eq]

theorem execFillRegion_eq (st : PixelState) (x0 y0 w h : Word) (s : State) :
    execFillRegion st x0 y0 w h s =
      .next ((s.withFb ((regionPixels s.grid x0.toNat y0.toNat w.toNat h.toNat).foldl
        (fbPixel s.grid st) s.fb)).advance 5) := by
  simp [execFillRegion, finish, pixelsWrite_eq]

theorem execFillAll_eq (st : PixelState) (s : State) :
    execFillAll st s = .next ((s.withFb ((List.range (8 * s.n)).foldl (fbFill st) s.fb)).advance 1) := by
  simp [execFillAll, finish, fillBytes_eq s _ st (fun a ha => List.mem_range.1 ha)]

end Sys2Proof.Machine
end

