-- ==== Sys2Proof/Laws/Emission.lean ====
section
/-! SUPPORT. Bursts and Emit: the bytes of a burst at each pair position, that every burst the block builds is
legal, what the chain latches, and what a list of emissions does when all draws succeed and when one fails. -/

namespace Sys2Proof.Machine

/-! ### Register codes -/

theorem regOfAddr_regAddr (r : Reg) : regOfAddr (regAddr r) = some r := by
  cases r with
  | digit k => revert k; decide
  | _ => decide

theorem regAddr_of_regOfAddr {c : Byte} {r : Reg} (h : regOfAddr c = some r) : regAddr r = c := by
  revert r; revert c; decide +kernel

theorem regAddr_inj {r r' : Reg} (h : regAddr r = regAddr r') : r = r' := by
  have := regOfAddr_regAddr r
  rw [h, regOfAddr_regAddr] at this
  exact (Option.some.inj this).symm

theorem regAddr_lt (r : Reg) : (regAddr r).toNat < 16 := by
  cases r with
  | digit k => revert k; decide
  | _ => decide

theorem digitAddr_eq {k : Nat} (hk : k < 8) : digitAddr k = regAddr (.digit (Fin.ofNat 8 k)) := by
  have : ∀ k : Fin 8, digitAddr k.val = regAddr (.digit (Fin.ofNat 8 k.val)) := by decide
  exact this ⟨k, hk⟩

theorem chainKey_inj {k k' : Nat} {r r' : Reg} (h : chainKey k r = chainKey k' r') : k = k' ∧ r = r' := by
  have h1 := regAddr_lt r
  have h2 := regAddr_lt r'
  unfold chainKey at h
  exact ⟨by omega, regAddr_inj (BitVec.eq_of_toNat_eq (by omega))⟩

/-! ### The pairs of a burst -/

theorem burstOf_succ (n : Nat) (f : Nat → List Byte) : burstOf (n + 1) f = burstOf n f ++ f n := by
  simp [burstOf, List.range_succ]

theorem burstOf_length (n : Nat) (r v : Nat → Byte) : (burstOf n (fun p => pair (r p) (v p))).length = 2 * n := by
  induction n with
  | zero => rfl
  | succ n ih => rw [burstOf_succ, List.length_append, ih]; simp [pair]; omega

theorem burstOf_reg {n p : Nat} (r v : Nat → Byte) (hp : p < n) (d : Byte) :
    (burstOf n (fun p => pair (r p) (v p))).getD (2 * p) d = r p := by
  induction n with
  | zero => omega
  | succ n ih =>
    rw [burstOf_succ]
    rcases Nat.lt_or_ge p n with h | h
    · rw [List.getD_append _ _ _ _ (by rw [burstOf_length]; omega), ih h]
    · obtain rfl : p = n := by omega
      rw [List.getD_append_right _ _ _ _ (by rw [burstOf_length]), burstOf_length]
      simp [pair]

theorem burstOf_value {n p : Nat} (r v : Nat → Byte) (hp : p < n) (d : Byte) :
    (burstOf n (fun p => pair (r p) (v p))).getD (2 * p + 1) d = v p := by
  induction n with
  | zero => omega
  | succ n ih =>
    rw [burstOf_succ]
    rcases Nat.lt_or_ge p n with h | h
    · rw [List.getD_append _ _ _ _ (by rw [burstOf_length]; omega), ih h]
    · obtain rfl : p = n := by omega
      rw [List.getD_append_right _ _ _ _ (by rw [burstOf_length]; omega), burstOf_length]
      simp [pair]

/-- A burst whose every register byte is a register's is legal. -/
theorem burstOf_legal {n : Nat} (r v : Nat → Byte) (h : ∀ p < n, (regOfAddr (r p)).isSome) :
    burstLegal n (burstOf n (fun p => pair (r p) (v p))) = true := by
  simp only [burstLegal, Bool.and_eq_true, beq_iff_eq, List.all_eq_true, List.mem_range]
  exact ⟨burstOf_length n r v, fun p hp => by rw [burstOf_reg r v hp]; exact h p hp⟩

/-- WRITE_ONE's burst as one pair per position. -/
theorem writeOneBurst_pairs (n i : Nat) (reg : Reg) (value : Byte) :
    writeOneBurst n i reg value =
      burstOf n (fun p => pair (if p = n - 1 - i then regAddr reg else regAddr .noop)
        (if p = n - 1 - i then value else 0x00#8)) := by
  unfold writeOneBurst noopPair
  congr 1; funext p; split <;> rfl

theorem writeOneBurst_legal (n i : Nat) (reg : Reg) (value : Byte) : burstLegal n (writeOneBurst n i reg value) = true := by
  rw [writeOneBurst_pairs]
  refine burstOf_legal _ _ (fun p _ => ?_)
  split <;> simp [regOfAddr_regAddr]

theorem writeAllBurst_legal (n : Nat) (reg : Reg) (value : Byte) : burstLegal n (writeAllBurst n reg value) = true :=
  burstOf_legal _ _ (fun p _ => by simp [regOfAddr_regAddr])

theorem columnBurst_legal (n : Nat) {k : Nat} (hk : k < 8) (f : Nat → Byte) : burstLegal n (columnBurst n k f) = true :=
  burstOf_legal _ _ (fun p _ => by simp [digitAddr_eq hk, regOfAddr_regAddr])

/-! ### What the chain latches (10_state R41, R42) -/

/-- What one chip's latching does to the chain's list at a register. -/
theorem cellsRead_latchChip (n : Nat) (b : Burst) (m : List Host.Cell) (j k : Nat) (r : Reg) (hr : r ≠ .noop) :
    cellsRead (latchChip n b m j) (chainKey k r) =
      if j = k ∧ regOfAddr (b.getD (2 * (n - 1 - k)) 0x00#8) = some r then
        some (b.getD (2 * (n - 1 - k) + 1) 0x00#8)
      else cellsRead m (chainKey k r) := by
  unfold latchChip
  by_cases e : j = k
  · subst e
    cases h : regOfAddr (b.getD (2 * (n - 1 - j)) 0x00#8) with
    | none => simp
    | some r' =>
      by_cases e' : r' = r
      · subst e'
        cases r' with
        | noop => exact absurd rfl hr
        | _ => simp
      · have ne : chainKey j r ≠ chainKey j r' := fun hk => e' (chainKey_inj hk).2.symm
        cases r' with
        | noop => simp [e']
        | _ => simp [e', ne]
  · simp only [e, false_and, if_false]
    have ne : ∀ r', chainKey k r ≠ chainKey j r' := fun r' hk => e (chainKey_inj hk).1.symm
    split
    · rfl
    · rfl
    · simp [ne]

theorem cellsRead_latchChips (n : Nat) (b : Burst) (m : List Host.Cell) (l k : Nat) (r : Reg) (hr : r ≠ .noop) :
    cellsRead ((List.range l).foldl (latchChip n b) m) (chainKey k r) =
      if k < l ∧ regOfAddr (b.getD (2 * (n - 1 - k)) 0x00#8) = some r then
        some (b.getD (2 * (n - 1 - k) + 1) 0x00#8)
      else cellsRead m (chainKey k r) := by
  induction l with
  | zero => simp
  | succ l ih =>
    rw [List.range_succ, List.foldl_append, List.foldl_cons, List.foldl_nil, cellsRead_latchChip _ _ _ _ _ _ hr, ih]
    by_cases h : regOfAddr (b.getD (2 * (n - 1 - k)) 0x00#8) = some r
    · simp only [h, and_true]
      split <;> split <;> first | rfl | (split <;> first | rfl | omega) | omega
    · simp only [h, and_false, if_false]

/-- What the chain holds after a burst (R41): chip `k` has latched the pair at position `n - 1 - k` if its register
byte names register `r`. -/
theorem chainRead_deliver (s : State) (i : Instr) (b : Burst) (k : Nat) (r : Reg) :
    (s.deliver i b).chainRead k r =
      if k < s.n ∧ r ≠ .noop ∧ regOfAddr (b.getD (2 * (s.n - 1 - k)) 0x00#8) = some r then
        some (b.getD (2 * (s.n - 1 - k) + 1) 0x00#8)
      else s.chainRead k r := by
  unfold State.chainRead
  by_cases hr : r = .noop
  · simp [hr]
  · by_cases hk : k < s.n
    · simp only [State.deliver_n, State.deliver_chain, State.deliver_chainEpoch, latchBurst,
        cellsRead_latchChips _ _ _ _ _ _ hr, hk, hr, ne_eq, not_false_eq_true, and_self, true_and, if_true]
      split <;> simp
    · simp [hk]

theorem chainRead_deliver_writeOne (s : State) (cmd : Instr) {i : Nat} (hi : i < s.n) (reg : Reg) (value : Byte) (k : Nat) (r : Reg) :
    (s.deliver cmd (writeOneBurst s.n i reg value)).chainRead k r =
      if k = i ∧ r = reg ∧ r ≠ .noop then some value else s.chainRead k r := by
  rw [chainRead_deliver, writeOneBurst_pairs]
  by_cases hk : k < s.n
  · have hp : s.n - 1 - k < s.n := by omega
    rw [burstOf_reg _ _ hp, burstOf_value _ _ hp]
    by_cases e : k = i
    · subst e
      simp only [if_true, regOfAddr_regAddr, Option.some.injEq]
      by_cases e2 : r = reg
      · subst e2; simp [hk]
      · have : ¬ reg = r := fun h => e2 h.symm
        simp [e2, this]
    · have ne : ¬ s.n - 1 - k = s.n - 1 - i := by omega
      simp only [ne, e, if_false, regOfAddr_regAddr, Option.some.injEq, false_and, ite_eq_right_iff, and_imp]
      intro _ h1 h2
      exact absurd h2.symm h1
  · have : k ≠ i := by omega
    simp [hk, this]

theorem chainRead_deliver_writeAll (s : State) (cmd : Instr) (reg : Reg) (value : Byte) (k : Nat) (r : Reg) :
    (s.deliver cmd (writeAllBurst s.n reg value)).chainRead k r =
      if k < s.n ∧ r = reg ∧ r ≠ .noop then some value else s.chainRead k r := by
  rw [chainRead_deliver]
  by_cases hk : k < s.n
  · have hp : s.n - 1 - k < s.n := by omega
    unfold writeAllBurst
    rw [burstOf_reg _ _ hp, burstOf_value _ _ hp]
    simp only [regOfAddr_regAddr, Option.some.injEq]
    by_cases e2 : r = reg
    · subst e2; simp [hk]
    · have : ¬ reg = r := fun h => e2 h.symm
      simp [e2, this]
  · simp [hk]

theorem chainRead_deliver_column (s : State) (cmd : Instr) {c : Nat} (hc : c < 8) (f : Nat → Byte) (k : Nat) (r : Reg) :
    (s.deliver cmd (columnBurst s.n c f)).chainRead k r =
      if k < s.n ∧ r = .digit (Fin.ofNat 8 c) then some (f k) else s.chainRead k r := by
  rw [chainRead_deliver]
  by_cases hk : k < s.n
  · have hp : s.n - 1 - k < s.n := by omega
    unfold columnBurst
    rw [burstOf_reg _ _ hp, burstOf_value _ _ hp]
    simp only [digitAddr_eq hc, regOfAddr_regAddr, Option.some.injEq]
    have e : s.n - 1 - (s.n - 1 - k) = k := by omega
    by_cases e2 : r = .digit (Fin.ofNat 8 c)
    · subst e2; simp [hk, e]
    · have : ¬ Reg.digit (Fin.ofNat 8 c) = r := fun h => e2 h.symm
      simp only [e2, this, and_false, if_false]
  · simp [hk]

/-! ### The chain's canonical form -/

theorem latchChip_sorted (n : Nat) (b : Burst) {m : List Host.Cell} (k : Nat) (h : Memory.sorted m) :
    Memory.sorted (latchChip n b m k) := by
  unfold latchChip
  split
  · exact h
  · exact h
  · exact cellsWrite_sorted _ _ h

theorem latchBurst_sorted (n : Nat) (b : Burst) {m : List Host.Cell} (h : Memory.sorted m) :
    Memory.sorted (latchBurst n b m) := by
  unfold latchBurst
  generalize List.range n = l
  induction l generalizing m with
  | nil => exact h
  | cons k rest ih => exact ih (latchChip_sorted n b k h)

theorem latchBurst_keys (n : Nat) (b : Burst) {m : List Host.Cell}
    (h : ∀ c ∈ m, ∃ k r, k < n ∧ r ≠ Reg.noop ∧ c.1 = chainKey k r) :
    ∀ c ∈ latchBurst n b m, ∃ k r, k < n ∧ r ≠ Reg.noop ∧ c.1 = chainKey k r := by
  unfold latchBurst
  have hl : ∀ k ∈ List.range n, k < n := fun k hk => List.mem_range.1 hk
  generalize List.range n = l at hl
  induction l generalizing m with
  | nil => exact h
  | cons k rest ih =>
    refine ih (fun c hc => ?_) (fun j hj => hl j (by simp [hj]))
    unfold latchChip at hc
    split at hc
    · exact h c hc
    · exact h c hc
    · rename_i r hne _
      rcases mem_cellsWrite hc with rfl | hc
      · exact ⟨k, r, hl k (by simp), fun e => hne e, rfl⟩
      · exact h c hc

/-! ### Draws -/

theorem afterDraws_afterDraws (s : State) (a b : Nat) : (s.afterDraws a).afterDraws b = s.afterDraws (a + b) := by
  simp only [State.afterDraws, List.drop_drop, List.length_drop]
  congr 1; omega

theorem afterDraws_zero (s : State) : s.afterDraws 0 = s := by simp [State.afterDraws]

theorem answer_afterDraws (s : State) (a j : Nat) : (s.afterDraws a).answer j = s.answer (a + j) := by
  simp only [State.answer, State.afterDraws, List.getElem?_drop, List.length_drop]
  cases h : s.answers[a + j]? with
  | some ok => rfl
  | none =>
    have := List.getElem?_eq_none_iff.1 h
    simp only; congr 1; omega

/-! ### Emissions -/

/-- Every burst of command `i` delivered, in order. -/
def State.deliverAll (s : State) (i : Instr) (bs : List Burst) : State := bs.foldl (fun t b => t.deliver i b) s

@[simp] theorem State.deliverAll_nil (s : State) (i : Instr) : s.deliverAll i [] = s := rfl
@[simp] theorem State.deliverAll_cons (s : State) (i : Instr) (b : Burst) (bs : List Burst) :
    s.deliverAll i (b :: bs) = (s.deliver i b).deliverAll i bs := rfl

/-- Deliveries write OUT, the chain and the record of what it latched only. -/
theorem deliverAll_eq (s : State) (i : Instr) (bs : List Burst) :
    s.deliverAll i bs =
      { s with
        out := s.out ++ bs
        chain := bs.foldl (fun m b => latchBurst s.n b m) s.chain
        delivered := s.delivered ++ bs.map (fun b => ⟨i, b⟩) } := by
  induction bs generalizing s with
  | nil => simp
  | cons b rest ih => rw [State.deliverAll_cons, ih]; simp [State.deliver, State.n, State.grid]

theorem deliver_afterDraws (s : State) (i : Instr) (b : Burst) (k : Nat) :
    (s.deliver i b).afterDraws k = (s.afterDraws k).deliver i b := rfl

theorem answer_deliver (s : State) (i : Instr) (b : Burst) (j : Nat) : (s.deliver i b).answer j = s.answer j := rfl

/-- Emissions whose draws all succeed: every burst delivered, `cpos` advanced. -/
theorem emitLoop_success (s : State) (i : Instr) (bs : List Burst) (k : Nat) (h : ∀ j < bs.length, s.answer j = true) :
    s.emitLoop i bs k = ((s.afterDraws bs.length).deliverAll i bs).advance k := by
  induction bs generalizing s with
  | nil => simp [State.emitLoop, afterDraws_zero]
  | cons b rest ih =>
    have h0 := h 0 (by simp)
    rw [State.emitLoop, h0]
    simp only
    rw [ih, deliver_afterDraws, afterDraws_afterDraws, State.deliverAll_cons, List.length_cons, Nat.add_comm]
    intro j hj
    rw [answer_deliver, answer_afterDraws]
    exact h _ (by simp; omega)

/-- Emissions whose first failing draw is the one of `b`: the bursts before it delivered, and the block faulted. -/
theorem emitLoop_failure (s : State) (i : Instr) (pre : List Burst) (b : Burst) (post : List Burst) (k : Nat)
    (h : ∀ j < pre.length, s.answer j = true) (hb : s.answer pre.length = false) :
    s.emitLoop i (pre ++ b :: post) k = ((s.afterDraws (pre.length + 1)).deliverAll i pre).raiseFault b := by
  induction pre generalizing s with
  | nil =>
    rw [List.nil_append, State.emitLoop]
    simp only [List.length_nil] at hb
    simp [hb]
  | cons c rest ih =>
    have h0 := h 0 (by simp)
    rw [List.cons_append, State.emitLoop, h0]
    simp only
    rw [ih, deliver_afterDraws, afterDraws_afterDraws, State.deliverAll_cons, List.length_cons]
    · congr 4; omega
    · intro j hj
      rw [answer_deliver, answer_afterDraws]
      exact h _ (by simp; omega)
    · rw [answer_deliver, answer_afterDraws, Nat.add_comm]
      exact hb

/-- Everything a list of emissions can do: all delivered, or the bursts before one delivered and that one failed. -/
theorem emitLoop_cases (s : State) (i : Instr) (bs : List Burst) (k : Nat) :
    s.emitLoop i bs k = ((s.afterDraws bs.length).deliverAll i bs).advance k ∨
      ∃ pre b post, bs = pre ++ b :: post ∧
        s.emitLoop i bs k = ((s.afterDraws (pre.length + 1)).deliverAll i pre).raiseFault b := by
  induction bs generalizing s with
  | nil => left; simp [State.emitLoop, afterDraws_zero]
  | cons b rest ih =>
    rw [State.emitLoop]
    cases h : s.answer 0 with
    | false => right; exact ⟨[], b, rest, rfl, by simp⟩
    | true =>
      simp only
      rcases ih ((s.afterDraws 1).deliver i b) with e | ⟨pre, c, post, rfl, e⟩
      · left
        rw [e, deliver_afterDraws, afterDraws_afterDraws, State.deliverAll_cons, List.length_cons, Nat.add_comm]
      · right
        refine ⟨b :: pre, c, post, rfl, ?_⟩
        rw [e, deliver_afterDraws, afterDraws_afterDraws, State.deliverAll_cons, List.length_cons]
        congr 4; omega

/-- A command whose bursts are legal is never refused. -/
theorem emitAll_of_legal (s : State) (i : Instr) (bs : List Burst) (k : Nat) (h : ∀ b ∈ bs, burstLegal s.n b = true) :
    emitAll s i bs k = .next (s.emitLoop i bs k) := by
  unfold emitAll
  rw [if_pos]
  exact List.all_eq_true.2 h

/-! ### The emitting commands in total form -/

/-- RENDER's bursts (43_renderer R171). -/
def renderList (s : State) : List Burst :=
  (List.range 8).map (fun k => columnBurst s.n k (fun ci => fbRead s.fb (storeAddr ci k)))

theorem renderList_legal (s : State) : ∀ b ∈ renderList s, burstLegal s.n b = true := by
  intro b hb
  obtain ⟨k, hk, rfl⟩ := List.mem_map.1 hb
  exact columnBurst_legal _ (List.mem_range.1 hk) _

theorem execRender_eq (s : State) : execRender s = .next (s.emitLoop .render (renderList s) 1) := by
  unfold execRender
  rw [renderBursts_eq]
  exact emitAll_of_legal _ _ _ _ (renderList_legal s)

/-- WRITE_ONE's bursts: one, or none outside the chain. -/
def writeOneList (s : State) (reg : Reg) (value : Byte) (chip : Word) : List Burst :=
  if s.n ≤ chip.toNat then [] else [writeOneBurst s.n chip.toNat reg value]

theorem execWriteOne_eq (reg : Reg) (value : Byte) (chip : Word) (s : State) :
    execWriteOne reg value chip s = .next (s.emitLoop (.writeOne reg value chip) (writeOneList s reg value chip) 2) := by
  refine emitAll_of_legal _ _ _ _ (fun b hb => ?_)
  split at hb
  · simp at hb
  · simp at hb; subst hb; exact writeOneBurst_legal _ _ _ _

theorem execWriteAll_eq (reg : Reg) (value : Byte) (s : State) :
    execWriteAll reg value s = .next (s.emitLoop (.writeAll reg value) [writeAllBurst s.n reg value] 1) := by
  refine emitAll_of_legal _ _ _ _ (fun b hb => ?_)
  simp at hb; subst hb; exact writeAllBurst_legal _ _ _

/-- WRITE_COLUMN_ALL's bursts: one, or none for a column above 7. -/
def writeColumnList (s : State) (column : Byte) (values : List Byte) : List Burst :=
  if column.toNat > 7 then [] else [columnBurst s.n column.toNat (valueAt values)]

theorem execWriteColumnAll_eq (column : Byte) (values : List Byte) (s : State) :
    execWriteColumnAll column values s = .next (s.emitLoop (.writeColumnAll column values) (writeColumnList s column values) (1 + s.n)) := by
  refine emitAll_of_legal _ _ _ _ (fun b hb => ?_)
  split at hb
  · simp at hb
  · simp at hb; subst hb; exact columnBurst_legal _ (by omega) _

end Sys2Proof.Machine
end

