-- ==== Sys2Proof/Laws/Codec.lean ====
section
/-! SUPPORT. The codec: fields of a header word built from fields, and the codes' inverses. -/

namespace Sys2Proof

theorem opcField_headerWord (o s v r : Byte) : opcField (headerWord o s v r) = o := by
  unfold opcField headerWord
  apply BitVec.eq_of_getLsbD_eq
  intro i hi
  have h1 : ¬ 24 + i < 8 := by omega
  have h2 : ¬ 24 + i - 8 < 8 := by omega
  have h3 : ¬ 24 + i - 8 - 8 < 8 := by omega
  have h4 : 24 + i - 8 - 8 - 8 = i := by omega
  simp only [BitVec.getLsbD_extractLsb', BitVec.getLsbD_append, hi, h1, h2, h3, h4, decide_true, Bool.true_and, if_false]

theorem subField_headerWord (o s v r : Byte) : subField (headerWord o s v r) = s := by
  unfold subField headerWord
  apply BitVec.eq_of_getLsbD_eq
  intro i hi
  have h1 : ¬ 16 + i < 8 := by omega
  have h2 : ¬ 16 + i - 8 < 8 := by omega
  have h4 : 16 + i - 8 - 8 = i := by omega
  simp only [BitVec.getLsbD_extractLsb', BitVec.getLsbD_append, hi, h1, h2, h4, decide_true, Bool.true_and, if_false,
    if_true]

theorem valField_headerWord (o s v r : Byte) : valField (headerWord o s v r) = v := by
  unfold valField headerWord
  apply BitVec.eq_of_getLsbD_eq
  intro i hi
  have h1 : ¬ 8 + i < 8 := by omega
  have h4 : 8 + i - 8 = i := by omega
  simp only [BitVec.getLsbD_extractLsb', BitVec.getLsbD_append, hi, h1, h4, decide_true, Bool.true_and, if_false, if_true]

theorem rsvField_headerWord (o s v r : Byte) : rsvField (headerWord o s v r) = r := by
  unfold rsvField headerWord
  apply BitVec.eq_of_getLsbD_eq
  intro i hi
  simp only [BitVec.getLsbD_extractLsb', BitVec.getLsbD_append, hi, decide_true, Bool.true_and, if_true, Nat.zero_add]

/-- A header word is its four fields. -/
theorem headerWord_fields (h : Word) : headerWord (opcField h) (subField h) (valField h) (rsvField h) = h := by
  unfold headerWord opcField subField valField rsvField
  apply BitVec.eq_of_getLsbD_eq
  intro i hi
  simp only [BitVec.getLsbD_append, BitVec.getLsbD_extractLsb']
  by_cases h1 : i < 8
  · simp [h1]
  · by_cases h2 : i < 16
    · have a : i - 8 < 8 := by omega
      have b : 8 + (i - 8) = i := by omega
      simp [h1, a, b]
    · by_cases h3 : i < 24
      · have a : ¬ i - 8 < 8 := by omega
        have b : i - 8 - 8 < 8 := by omega
        have c : 16 + (i - 8 - 8) = i := by omega
        simp [h1, a, b, c]
      · have a : ¬ i - 8 < 8 := by omega
        have b : ¬ i - 8 - 8 < 8 := by omega
        have c : 24 + (i - 8 - 8 - 8) = i := by omega
        have d : i - 8 - 8 - 8 < 8 := by omega
        simp [h1, a, b, c, d]

theorem stateOfCode_stateCode (st : PixelState) : stateOfCode (stateCode st) = some st := by cases st <;> decide

theorem stateCode_of_stateOfCode {c : Byte} {st : PixelState} (h : stateOfCode c = some st) : stateCode st = c := by
  unfold stateOfCode at h
  split at h
  · cases h; subst_vars; rfl
  · split at h
    · cases h; subst_vars; rfl
    · split at h
      · cases h; subst_vars; rfl
      · cases h

theorem opcodeOfCode_opcodeCode (op : Opcode) : opcodeOfCode (opcodeCode op) = some op := by cases op <;> decide

theorem opcodeCode_of_opcodeOfCode {c : Byte} {op : Opcode} (h : opcodeOfCode c = some op) : opcodeCode op = c := by
  revert op; revert c; decide +kernel

theorem payloadByte_zeroExtend (v : Byte) : payloadByte (v.zeroExtend 32) = v := by
  revert v; decide +kernel

theorem payloadReserved_zeroExtend (v : Byte) : payloadReserved (v.zeroExtend 32) = 0#24 := by
  revert v; decide +kernel

theorem zeroExtend_payloadByte {w : Word} (h : payloadReserved w = 0#24) : (payloadByte w).zeroExtend 32 = w := by
  apply BitVec.eq_of_getLsbD_eq
  intro i hi
  by_cases h1 : i < 8
  · simp [payloadByte, h1, hi]
  · have e := congrArg (fun v => BitVec.getLsbD v (i - 8)) h
    have a : i - 8 < 24 := by omega
    have b : 8 + (i - 8) = i := by omega
    simp only [payloadReserved, BitVec.getLsbD_extractLsb', a, b, decide_true, Bool.true_and, BitVec.getLsbD_zero] at e
    simp only [payloadByte, BitVec.truncate_eq_setWidth, BitVec.getLsbD_setWidth, BitVec.getLsbD_extractLsb', h1, e,
      decide_false, Bool.false_and, Bool.and_false]

/-- The header of a command: what `decodeHeader` reads from its header word. -/
def Instr.header (i : Instr) : Header :=
  match i with
  | .get _ _ => .get
  | .set st _ _ => .set st
  | .fillRegion st _ _ _ _ => .fillRegion st
  | .fillAll st => .fillAll st
  | .render => .render
  | .writeOne r v _ => .writeOne r v
  | .writeAll r v => .writeAll r v
  | .writeColumnAll c _ => .writeColumnAll c

/-- The header word of a command decodes to its header. -/
theorem decodeHeader_encodeHeader (i : Instr) : decodeHeader (encodeHeader i) = .ok i.header := by
  cases i <;>
    simp [decodeHeader, encodeHeader, Instr.header, opcField_headerWord, subField_headerWord, valField_headerWord,
      rsvField_headerWord, withState, withRegister, stateOfCode_stateCode, Machine.regOfAddr_regAddr, opcodeOfCode]

/-- A header word that decodes to the header of a command is that command's header word. -/
theorem encodeHeader_of_decodeHeader {w : Word} {i : Instr} (hd : decodeHeader w = .ok i.header) :
    encodeHeader i = w := by
  have hf := headerWord_fields w
  unfold decodeHeader at hd
  cases ho : opcodeOfCode (opcField w) with
  | none => simp [ho] at hd
  | some op =>
    have hc := opcodeCode_of_opcodeOfCode ho
    simp only [ho] at hd
    split at hd
    · cases hd
    split at hd
    · cases hd
    split at hd
    · cases hd
    rename_i h1 h2 h3
    simp only [ne_eq, not_not] at h1
    rw [h1] at hf
    cases op <;> simp only [withState, withRegister] at hd <;> (try split at hd) <;> cases i <;>
      simp_all [Instr.header, encodeHeader, opcodeCode]
    case set => rw [stateCode_of_stateOfCode (by assumption), hf]
    case fillRegion => rw [stateCode_of_stateOfCode (by assumption), hf]
    case fillAll => rw [stateCode_of_stateOfCode (by assumption), hf]
    case writeOne => rw [Machine.regAddr_of_regOfAddr (by assumption), hf]
    case writeAll => rw [Machine.regAddr_of_regOfAddr (by assumption), hf]

/-! ### What names nothing (R83, R85, R86) -/

theorem opcodeOfCode_eq_none (c : Byte) : opcodeOfCode c = none ↔ (c = 0x00#8 ∨ 0x09#8 ≤ c) := by revert c; decide +kernel
theorem stateOfCode_eq_none (c : Byte) : stateOfCode c = none ↔ 0x03#8 ≤ c := by revert c; decide +kernel
theorem regOfAddr_eq_none (c : Byte) : regOfAddr c = none ↔ (c = 0x0D#8 ∨ c = 0x0E#8 ∨ 0x10#8 ≤ c) := by
  revert c; decide +kernel

/-- Behind a legal header the only refusal left is that of a payload word, and only WRITE_COLUMN_ALL has one (R88). -/
theorem decodeOperands_refuse {n : Nat} {hd : Header} {ws : List Word} {r : RefuseReason}
    (h : decodeOperands n hd ws = .refuse r) :
    r = .reservedPayload ∧ (∃ c, hd = .writeColumnAll c) ∧ n ≤ ws.length ∧ ∃ w ∈ ws.take n, payloadReserved w ≠ 0#24 := by
  cases hd <;> simp only [decodeOperands] at h <;> (try (split at h <;> cases h)) <;> (try cases h)
  split at h
  · cases h
  · split at h
    · rename_i hl ha
      cases h
      obtain ⟨w, hw, hne⟩ := List.any_eq_true.1 ha
      exact ⟨rfl, ⟨_, rfl⟩, by omega, w, hw, by simpa using hne⟩
    · cases h

end Sys2Proof
end

