-- ==== Sys2Proof/Laws/PerInstr.lean ====
section
/-! SUPPORT. A law per command, about the command as syntax: the number of words it encodes to (30_encoding R82). -/

namespace Sys2Proof.Laws.EncodedLength

/-- A command that is well formed for `n` chips encodes to the number of words R82 gives it. -/
def Statement (i : Instr) : Prop := ∀ n, i.wellFormed n = true → (encode i).length = i.words n

theorem get (x y : Word) : Statement (.get x y) := fun _ _ => rfl

theorem set (st : PixelState) (x y : Word) : Statement (.set st x y) := fun _ _ => rfl

theorem fillRegion (st : PixelState) (x0 y0 w h : Word) : Statement (.fillRegion st x0 y0 w h) := fun _ _ => rfl

theorem fillAll (st : PixelState) : Statement (.fillAll st) := fun _ _ => rfl

theorem render : Statement .render := fun _ _ => rfl

theorem writeOne (reg : Reg) (value : Byte) (chip : Word) : Statement (.writeOne reg value chip) := fun _ _ => rfl

theorem writeAll (reg : Reg) (value : Byte) : Statement (.writeAll reg value) := fun _ _ => rfl

theorem writeColumnAll (column : Byte) (values : List Byte) : Statement (.writeColumnAll column values) := by
  intro n h
  have : values.length = n := by simpa [Instr.wellFormed] using h
  simp [encode, encodeOperands, Instr.words, Instr.opcode, operandCount, this, Nat.add_comm]

end Sys2Proof.Laws.EncodedLength
end

