-- ==== Sys2Proof/Laws/Command.lean ====
section
/-! SUPPORT. What a command can do, said once: the pixel commands change storage or RESP, and every other command is
a list of emissions. The provers cite these instead of unfolding `exec`. -/

namespace Sys2Proof.Machine

/-- A constant list at each position. -/
theorem flatMap_const (n : Nat) (l : List Byte) : (List.range n).flatMap (fun _ => l) = (List.replicate n l).flatten := by
  induction n with
  | zero => rfl
  | succ n ih => rw [List.range_succ, List.flatMap_append, ih, List.replicate_succ']; simp

/-- WRITE_ONE's burst as R133 says it in words: no-op pairs, the target pair, no-op pairs. -/
theorem writeOneBurst_eq (n i : Nat) (hi : i < n) (reg : Reg) (v : Byte) :
   writeOneBurst n i reg v = (List.replicate (n - 1 - i) [0x00#8, 0x00#8]).flatten ++ [regAddr reg, v] ++ (List.replicate i [0x00#8, 0x00#8]).flatten := by
  unfold writeOneBurst burstOf
  have : n = (n - 1 - i) + (1 + i) := by omega
  conv_lhs => rw [this, List.range_add, List.range_add]
  simp only [List.flatMap_append, List.map_append, List.flatMap_map]
  have e : n - 1 - i + (1 + i) - 1 - i = n - 1 - i := by omega
  rw [List.append_assoc]
  have a1 : List.flatMap (fun p => if p = n - 1 - i + (1 + i) - 1 - i then pair (regAddr reg) v else noopPair) (List.range (n - 1 - i)) = (List.replicate (n - 1 - i) [0x00#8, 0x00#8]).flatten := by
    rw [← flatMap_const]
    refine List.flatMap_congr (fun p hp => ?_)
    have := List.mem_range.1 hp
    rw [if_neg (by omega)]; rfl
  rw [a1]
  congr 1
  have a2 : (List.range i).flatMap (fun a => if n - 1 - i + (1 + a) = n - 1 - i + (1 + i) - 1 - i then pair (regAddr reg) v else noopPair) = (List.replicate i [0x00#8, 0x00#8]).flatten := by
    rw [← flatMap_const]
    refine List.flatMap_congr (fun p hp => ?_)
    rw [if_neg (by omega)]; rfl
  have a3 : n - 1 - i = n - 1 - i + (1 + i) - 1 - i := by omega
  have a4 : List.range 1 = [0] := rfl
  simp only [a4, Nat.add_zero, List.flatMap_cons, List.flatMap_nil, if_pos a3, List.append_nil]
  refine congrArg (pair (regAddr reg) v ++ ·) ?_
  exact a2

/-- WRITE_COLUMN_ALL's burst: one pair per value, last chip first (R137). -/
theorem columnBurst_eq (n : Nat) (k : Nat) (vs : List Byte) (h : vs.length = n) : columnBurst n k (valueAt vs) = vs.reverse.flatMap (fun v => [digitAddr k, v]) := by
  subst h
  unfold columnBurst burstOf
  have : vs.reverse = (List.range vs.length).map (fun p => valueAt vs (vs.length - 1 - p)) := by
    apply List.ext_getElem
    · simp
    · intro i h1 h2
      simp at h1
      simp [valueAt, List.getElem_reverse]
      rw [List.getElem?_eq_getElem (by omega)]; rfl
  rw [this, List.flatMap_map]; rfl

/-- DIGIT of a column code (R87, R130). -/
theorem digitAddr_column {c : Byte} (h : c.toNat ≤ 7) : digitAddr c.toNat = c + 1#8 := by
  revert c; decide

/-- Emissions the transport accepts, in the terms of the claims. -/
theorem emitLoop_emitted (s : State) (i : Instr) (bs : List Burst) (len : Nat) (h : TransportAccepts s bs.length) :
   s.emitLoop i bs len = ((s.afterDraws bs.length).deliverAll i bs).advance len ∧ Emitted s i bs len (s.emitLoop i bs len) := by
  have e := emitLoop_success s i bs len h
  refine ⟨e, ?_⟩
  unfold Emitted
  rw [e, deliverAll_eq]; rfl

/-- Emissions of which draw `k` is the first to fail, in the terms of the claims. -/
theorem emitLoop_failed (s : State) (i : Instr) (bs : List Burst) (k : Nat) (b : Burst) (len : Nat) (hb : bs[k]? = some b) (h : TransportFailsAt s k) :
   TransportFailed s (bs.take k) b (s.emitLoop i bs len) := by
  obtain ⟨hk, rfl⟩ := List.getElem?_eq_some_iff.1 hb
  have hl : (bs.take k).length = k := by simp; omega
  have e : bs = bs.take k ++ bs[k] :: bs.drop (k+1) := by rw [List.getElem_cons_drop, List.take_append_drop]
  have := emitLoop_failure s i (bs.take k) bs[k] (bs.drop (k+1)) len (by rw [hl]; exact h.1) (by rw [hl]; exact h.2)
  rw [← e] at this
  unfold TransportFailed
  rw [this, deliverAll_eq]; rfl

/-- RENDER's bursts are those R171 asks for. -/
theorem renderList_asked (s : State) : renderList s = askedBursts s .render := by
  unfold renderList askedBursts
  refine List.map_congr_left (fun k hk => ?_)
  rfl

/-- Every command that is no pixel command is a list of legal emissions: for a well-formed one, the bursts the rules
ask for, and then its own length. -/
theorem exec_emits (i : Instr) (s : State) (h : isPixel i = false) : ∃ bs len, exec i s = .next (s.emitLoop i bs len) ∧ (∀ b ∈ bs, burstLegal s.n b = true) ∧ (i.wellFormed s.n = true → bs = askedBursts s i ∧ len = (encode i).length) := by
  cases i <;> simp [isPixel] at h
  case render => exact ⟨_, _, execRender_eq s, renderList_legal s, fun _ => ⟨renderList_asked s, rfl⟩⟩
  case writeOne reg v chip =>
    refine ⟨_, _, execWriteOne_eq reg v chip s, ?_, fun _ => ⟨?_, rfl⟩⟩
    · intro b hb; unfold writeOneList at hb; split at hb <;> simp at hb; subst hb; exact writeOneBurst_legal _ _ _ _
    · simp only [writeOneList, askedBursts]
      by_cases hc : chip.toNat < s.n
      · rw [if_neg (by omega), if_pos hc, writeOneBurst_eq _ _ hc]
      · rw [if_pos (by omega), if_neg hc]
  case writeAll reg v =>
    refine ⟨_, _, execWriteAll_eq reg v s, ?_, fun _ => ⟨?_, rfl⟩⟩
    · intro b hb; simp at hb; subst hb; exact writeAllBurst_legal _ _ _
    · unfold writeAllBurst burstOf pair; rw [flatMap_const]; rfl
  case writeColumnAll c vs =>
    refine ⟨_, _, execWriteColumnAll_eq c vs s, ?_, fun hw => ⟨?_, ?_⟩⟩
    · intro b hb; unfold writeColumnList at hb; split at hb <;> simp at hb; subst hb; exact columnBurst_legal _ (by omega) _
    · simp only [writeColumnList, askedBursts]
      by_cases hc : c.toNat ≤ 7
      · rw [if_neg (by omega), if_pos hc, columnBurst, digitAddr_column hc]; rfl
      · rw [if_pos (by omega), if_neg hc]
    · have := Laws.EncodedLength.writeColumnAll c vs s.n hw
      rw [this]; rfl

/-- Every command that is no pixel command emits the bursts the rules ask for. -/
theorem exec_asked (i : Instr) (s : State) (h : isPixel i = false) : ∃ len, exec i s = .next (s.emitLoop i (askedBursts s i) len) := by
  generalize hi : i = i0 at h ⊢
  cases i0 <;> simp [isPixel] at h
  case writeColumnAll c vs =>
    refine ⟨1 + s.n, (execWriteColumnAll_eq c vs s).trans ?_⟩
    rw [show writeColumnList s c vs = askedBursts s (.writeColumnAll c vs) from ?_]
    simp only [writeColumnList, askedBursts]
    by_cases hc : c.toNat ≤ 7
    · rw [if_neg (by omega), if_pos hc, columnBurst, digitAddr_column hc]; rfl
    · rw [if_pos (by omega), if_neg hc]
  all_goals
    obtain ⟨bs, len, h1, _, h2⟩ := exec_emits i s (by subst hi; rfl)
    rw [(h2 (by subst hi; rfl)).1] at h1
    subst hi
    exact ⟨len, h1⟩

/-- What the chain holds after the first `l` column bursts. -/
theorem chainRead_deliverColumns (s : State) (i : Instr) (F : Nat → Nat → Byte) (l : Nat) (hl : l ≤ 8) (c : Nat) (r : Reg) :
   (s.deliverAll i ((List.range l).map (fun k => columnBurst s.n k (F k)))).chainRead c r =
     match r with
     | .digit d => if c < s.n ∧ d.val < l then some (F d.val c) else s.chainRead c r
     | _ => s.chainRead c r := by
  induction l with
  | zero => cases r <;> simp
  | succ l ih =>
    have ih := ih (by omega)
    rw [List.range_succ, List.map_append, State.deliverAll, List.foldl_append]
    simp only [List.map_cons, List.map_nil, List.foldl_cons, List.foldl_nil]
    set u := List.foldl (fun t b => t.deliver i b) s ((List.range l).map (fun k => columnBurst s.n k (F k))) with hu
    have hn : u.n = s.n := by
      have := deliverAll_eq s i ((List.range l).map (fun k => columnBurst s.n k (F k)))
      rw [State.deliverAll, ← hu] at this; rw [this]; rfl
    rw [← hn, chainRead_deliver_column u i (by omega) (F l) c r]
    have ih' : u.chainRead c r = _ := ih
    rw [ih']
    clear ih' ih
    cases r with
    | digit d =>
      simp only [Reg.digit.injEq]
      by_cases e : d = Fin.ofNat 8 l
      · have hd : d.val = l := by rw [e]; simp; omega
        simp only [e, and_true, hn]
        rw [← e, hd]
        by_cases hcn : c < s.n <;> simp [hcn]
      · have hd : d.val ≠ l := fun h => e (by apply Fin.ext; simp; omega)
        simp only [e, and_false, if_false]
        split <;> split <;> first | rfl | omega
    | _ => simp

/-- What the chain holds after a RENDER that is delivered (43_renderer R171, 10_state R41). -/
theorem chainRead_render (s : State) (h : TransportAccepts s 8) (c : Nat) (r : Reg) :
   (s.emitLoop .render (renderList s) 1).chainRead c r =
     match r with
     | .digit d => if c < s.n then some (fbRead s.fb (8 * c + d.val)) else s.chainRead c r
     | _ => s.chainRead c r := by
  have hA : TransportAccepts s (renderList s).length := by simpa [renderList] using h
  rw [(emitLoop_emitted s .render _ _ hA).1]
  have := chainRead_deliverColumns (s.afterDraws 8) .render (fun k ci => fbRead s.fb (storeAddr ci k)) 8 (by omega) c r
  refine Eq.trans ?_ (this.trans ?_)
  · rfl
  · cases r <;> first | rfl | skip
    rename_i d
    have := d.isLt
    simp only [this, and_true]; rfl

/-- A pixel command changes storage by canonical writes inside the storage, or RESP by one bit, and `cpos`. -/
theorem exec_pixel (i : Instr) (s : State) (h : isPixel i = true) :
    ∃ t, exec i s = .next t ∧ t = { s with fb := t.fb, resp := t.resp, cpos := s.cpos + (encode i).length } ∧
      (writesBuffer i = true → t.resp = s.resp) ∧
      (writesBuffer i = false → t.fb = s.fb ∧ ∃ b, t.resp = s.resp ++ [b]) ∧
      (Memory.wf s.fb → Memory.wf t.fb) ∧
      ((∀ c ∈ s.fb, c.1 < 8 * s.n) → ∀ c ∈ t.fb, c.1 < 8 * s.n) ∧
      (∀ a, 8 * s.n ≤ a → fbRead t.fb a = fbRead s.fb a) := by
  cases i <;> simp [isPixel] at h
  case get x y =>
    exact ⟨_, execGet_eq x y s, rfl, by simp [writesBuffer], fun _ => ⟨rfl, _, rfl⟩, id, id, fun _ _ => rfl⟩
  case set st x y =>
    exact ⟨_, execSet_eq st x y s, rfl, fun _ => rfl, by simp [writesBuffer], fbPixel_wf _ _ _,
      foldl_fbPixel_bound s.grid st [(x.toNat, y.toNat)], fun a ha => fbRead_fbPixel_outside _ _ _ _ a ha⟩
  case fillRegion st x0 y0 w h' =>
    exact ⟨_, execFillRegion_eq st x0 y0 w h' s, rfl, fun _ => rfl, by simp [writesBuffer], foldl_fbPixel_wf _ _ _,
      foldl_fbPixel_bound _ _ _, fun a ha => fbRead_foldl_outside _ _ _ _ a ha⟩
  case fillAll st =>
    refine ⟨_, execFillAll_eq st s, rfl, fun _ => rfl, by simp [writesBuffer], foldl_fbFill_wf _ _,
      foldl_fbFill_bound _ _ _ (fun a ha => List.mem_range.1 ha), fun a ha => ?_⟩
    simp only [State.advance_fb, State.withFb_fb]
    rw [fbRead_foldl_fill _ _ List.nodup_range, if_neg (by simp; omega)]

/-- Everything a list of emissions can leave, whatever the draws: storage, RESP and the configuration as before, OUT
longer by a prefix of the bursts, and either no new flag and `cpos` advanced, or FAULT with `cpos` as before. -/
theorem emitLoop_frame (s : State) (i : Instr) (bs : List Burst) (k : Nat) :
    ∃ k', s.emitLoop i bs k = { s with
        out := s.out ++ bs.take k', cpos := (s.emitLoop i bs k).cpos, fault := (s.emitLoop i bs k).fault
        haltInfo := (s.emitLoop i bs k).haltInfo, answers := (s.emitLoop i bs k).answers
        draws := (s.emitLoop i bs k).draws, chain := (s.emitLoop i bs k).chain
        chainEpoch := (s.emitLoop i bs k).chainEpoch, delivered := (s.emitLoop i bs k).delivered } ∧
      (((s.emitLoop i bs k).fault = s.fault ∧ (s.emitLoop i bs k).haltInfo = s.haltInfo ∧
          (s.emitLoop i bs k).cpos = s.cpos + k ∧ k' = bs.length ∧
          (s.emitLoop i bs k).chain = bs.foldl (fun m b => latchBurst s.n b m) s.chain ∧
          (s.emitLoop i bs k).delivered = s.delivered ++ bs.map (fun b => ⟨i, b⟩)) ∨
        ((s.emitLoop i bs k).fault = true ∧ (s.emitLoop i bs k).cpos = s.cpos ∧ (s.emitLoop i bs k).chain = [] ∧
          k' < bs.length ∧ (s.emitLoop i bs k).delivered = [] ∧
          (s.emitLoop i bs k).haltInfo = some ⟨transportFailureCode, s.cpos, .burst ((bs[k']?).getD [])⟩)) := by
  rcases emitLoop_cases s i bs k with e | ⟨pre, b, post, hb, e⟩
  · refine ⟨bs.length, ?_, .inl ?_⟩
    · rw [e, deliverAll_eq, List.take_length]; rfl
    · rw [e, deliverAll_eq]; exact ⟨rfl, rfl, rfl, rfl, rfl, rfl⟩
  · have ht : bs.take pre.length = pre := by rw [hb]; simp
    have hg : bs[pre.length]? = some b := by rw [hb]; simp
    refine ⟨pre.length, ?_, .inr ?_⟩
    · rw [e, deliverAll_eq, ht]; rfl
    · rw [e, deliverAll_eq, hg]; exact ⟨rfl, rfl, rfl, by rw [hb]; simp, rfl, rfl⟩

end Sys2Proof.Machine
end

