-- ==== Sys2Proof/Laws/Boot.lean ====
section
/-! SUPPORT. The boot of the chain (70_reset_and_hazards R223): what makes the chips initialized and rendered to, what
leaves that as it is, and what the display view is before and after. -/

namespace Sys2Proof.Machine

/-! ### Commands in a row among the deliveries -/

theorem sentInARow_iff (cs : List Instr) (l : List Sent) : sentInARow cs l = true ↔ cs <:+: l.map Sent.cmd := by
  simp only [sentInARow, List.any_eq_true, List.mem_tails, List.isPrefixOf_iff_prefix]
  exact ⟨fun ⟨t, ht, hp⟩ => hp.isInfix.trans ht.isInfix,
    fun ⟨pre, post, e⟩ => ⟨cs ++ post, ⟨pre, by rw [← e, List.append_assoc]⟩, List.prefix_append _ _⟩⟩

/-- Later deliveries do not undo it. -/
theorem sentInARow_append {cs : List Instr} {l : List Sent} (more : List Sent) (h : sentInARow cs l = true) :
    sentInARow cs (l ++ more) = true := by
  rw [sentInARow_iff] at h ⊢
  rw [List.map_append]
  exact h.trans (List.prefix_append _ _).isInfix

/-- Once they have been delivered, whatever was before. -/
theorem sentInARow_suffix (before : List Sent) {cs : List Instr} {l : List Sent} (h : l.map Sent.cmd = cs) :
    sentInARow cs (before ++ l) = true := by
  rw [sentInARow_iff, List.map_append, h]
  exact (List.suffix_append _ _).isInfix

/-- Only a burst of the last of the commands completes the row. -/
theorem sentInARow_concat {cs : List Instr} {d : Sent} (h : cs.getLast? ≠ some d.cmd) (hcs : cs ≠ []) (l : List Sent) :
    sentInARow cs (l ++ [d]) = sentInARow cs l := by
  rw [Bool.eq_iff_iff]
  refine ⟨fun hd => ?_, sentInARow_append [d]⟩
  rw [sentInARow_iff] at hd ⊢
  obtain ⟨pre, post, e⟩ := hd
  rw [List.map_append] at e
  rcases List.eq_nil_or_concat post with rfl | ⟨post', x, rfl⟩
  · have hl := congrArg List.getLast? e
    rw [List.append_nil, List.getLast?_append_of_ne_nil _ hcs] at hl
    exact absurd (by simpa using hl) h
  · refine ⟨pre, post', ?_⟩
    rw [List.concat_eq_append, ← List.append_assoc] at e
    exact (List.append_inj' e rfl).1

/-- Bursts of a command that is not the last of the row complete nothing. -/
theorem sentInARow_other {cs : List Instr} {i : Instr} (h : cs.getLast? ≠ some i) (hcs : cs ≠ []) (l : List Sent)
    (bs : List Burst) : sentInARow cs (l ++ bs.map (fun b => ⟨i, b⟩)) = sentInARow cs l := by
  induction bs generalizing l with
  | nil => simp
  | cons b rest ih =>
    rw [List.map_cons, ← List.singleton_append, ← List.append_assoc, ih]
    exact sentInARow_concat h hcs l

/-! ### INIT_CHAIN and RENDER -/

/-- Only SHUTDOWN = 0x01 to every chip completes INIT_CHAIN. -/
theorem initSent_other {i : Instr} (h : i ≠ .writeAll .shutdown 0x01#8) (b : BitVec 4) (l : List Sent) (bs : List Burst) :
    initSent b (l ++ bs.map (fun b => ⟨i, b⟩)) = initSent b l :=
  sentInARow_other (by simpa [initCommands] using h.symm) (by simp [initCommands]) l bs

/-- Only a RENDER counts as one. -/
theorem renderSent_other {i : Instr} (h : i ≠ .render) (l : List Sent) (bs : List Burst) :
    renderSent (l ++ bs.map (fun b => ⟨i, b⟩)) = renderSent l :=
  sentInARow_other (by simpa using h.symm) (by simp) l bs

/-- A RENDER's bursts, whatever was sent before. -/
theorem renderSent_renderList (s : State) (before : List Sent) :
    renderSent (before ++ (renderList s).map (fun b => ⟨.render, b⟩)) = true :=
  sentInARow_suffix before rfl

/-- Emissions of a command other than RENDER, whatever the draws, do not make the chips rendered to. -/
theorem emitLoop_rendered {i : Instr} (h : i ≠ .render) (s : State) (bs : List Burst) (k : Nat)
    (hr : (s.emitLoop i bs k).rendered = true) : s.rendered = true := by
  obtain ⟨_, _, ⟨_, _, _, _, _, hd⟩ | ⟨_, _, _, _, hd, _⟩⟩ := emitLoop_frame s i bs k
  · rwa [State.rendered, hd, renderSent_other h] at hr
  · rw [State.rendered, hd] at hr; cases hr

/-- No command but RENDER makes the chips rendered to. -/
theorem exec_rendered {i : Instr} (h : i ≠ .render) {s t : State} (he : exec i s = .next t) (hr : t.rendered = true) :
    s.rendered = true := by
  by_cases hp : isPixel i = true
  · obtain ⟨u, hu, e, _⟩ := exec_pixel i s hp
    obtain rfl : u = t := Host.Outcome.next.inj (hu.symm.trans he)
    rw [e] at hr
    exact hr
  · obtain ⟨bs, len, hu, _⟩ := exec_emits i s (by simpa using hp)
    rw [hu] at he
    obtain rfl := Host.Outcome.next.inj he
    exact emitLoop_rendered h s bs len hr

/-- Nor do any commands without a RENDER. -/
theorem runCommands_rendered {is : List Instr} (h : .render ∉ is) {s t : State} (he : runCommands is s = .next t)
    (hr : t.rendered = true) : s.rendered = true := by
  induction is generalizing s with
  | nil => cases he; exact hr
  | cons i rest ih =>
    rw [List.mem_cons, not_or] at h
    unfold runCommands at he
    cases hi : exec i s with
    | fault f => rw [hi] at he; cases he
    | refused r => rw [hi] at he; cases he
    | next u =>
      rw [hi] at he
      simp only at he
      cases hs : u.status with
      | haltedRefused => rw [hs] at he; cases he
      | haltedFault => rw [hs] at he; cases he
      | running => rw [hs] at he; exact exec_rendered (fun e => h.1 e.symm) hi (ih h.2 he)

/-! ### The display view -/

/-- Before the boot the display view is the free value of every pixel inside the buffer. -/
theorem displayLit_unbooted {s : State} (h : s.booted = false) (x y : Nat) : s.displayLit x y =
    (s.pixel x y).map (fun _ => Config.displayBeforeBoot s.chainEpoch s.delivered.length x y) := by
  unfold State.displayLit State.pixel
  cases decodePixel s.grid x y <;> simp [h]

/-- After it, the column register's bit. -/
theorem displayLit_booted {s : State} (h : s.booted = true) {x y : Nat} {d : PixelAddr}
    (hd : decodePixel s.grid x y = some d) :
    s.displayLit x y = (s.chainRead d.chip (.digit (Fin.ofNat 8 d.column))).map (fun v => v.getLsbD d.bit) := by
  unfold State.displayLit
  simp [hd, h]

/-- A delivered RENDER makes the display view mean something exactly where the chips are initialized. -/
theorem booted_render (s : State) (h : TransportAccepts s 8) :
    (s.emitLoop .render (renderList s) 1).booted = s.initialized := by
  have hA : TransportAccepts s (renderList s).length := by simpa [renderList] using h
  have hE := (emitLoop_emitted s .render _ 1 hA).2
  rw [Emitted] at hE
  rw [hE]
  show (initSent s.brightness (s.delivered ++ (renderList s).map (fun b => ⟨.render, b⟩)) &&
    renderSent (s.delivered ++ (renderList s).map (fun b => ⟨.render, b⟩))) = initSent s.brightness s.delivered
  rw [initSent_other (by simp), renderSent_renderList, Bool.and_true]

end Sys2Proof.Machine
end

