-- ==== Sys2Proof/Laws/Step.lean ====
section
/-! SUPPORT. What a step can do, said once: which case a command step is in, and what the host's actions do. -/

namespace Sys2Proof.Machine

theorem status_running_iff (s : State) : s.status = .running ↔ s.refused = false ∧ s.fault = false := by
  unfold State.status
  cases s.refused <;> cases s.fault <;> simp

/-- With no action of the host pending, a step is the block's own. -/
theorem step_of_no_host {s : State} (h : s.host = []) : step s = commandStep s := by
  unfold step; rw [h]

/-- With an action of the host pending, a step is that action. -/
theorem step_of_host {s : State} {a : HostAction} {rest : List HostAction} (h : s.host = a :: rest) :
    step s = hostStep a { s with host := rest } := by
  unfold step; rw [h]

/-- Everything a command step that answers a next state can be: the command at `cpos`, a wait, or a refusal, of a
running block. -/
theorem commandStep_cases {s t : State} (h : commandStep s = .next t) :
    (s.refused = false ∧ s.fault = false) ∧
      ((∃ i, s.fetch = .command i ∧ exec i s = .next t) ∨ (s.fetch = .wait ∧ t = s) ∨
        ∃ r, s.fetch = .refuse r ∧ t = s.refuse r) := by
  unfold commandStep at h
  cases hst : s.status with
  | haltedRefused => rw [hst] at h; cases h
  | haltedFault => rw [hst] at h; cases h
  | running =>
    refine ⟨(status_running_iff s).1 hst, ?_⟩
    rw [hst] at h
    simp only at h
    cases hf : s.fetch with
    | command i => rw [hf] at h; exact .inl ⟨i, rfl, h⟩
    | wait => rw [hf] at h; cases h; exact .inr (.inl ⟨rfl, rfl⟩)
    | refuse r => rw [hf] at h; cases h; exact .inr (.inr ⟨r, rfl, rfl⟩)

/-- Everything a step that answers a next state can be: a command step, presented words, or a reset. -/
theorem step_cases {s t : State} (h : step s = .next t) :
    (s.host = [] ∧ commandStep s = .next t) ∨
      (∃ rest, s.host = .grant :: rest ∧ commandStep { s with host := rest } = .next t) ∨
      (∃ ws rest, s.host = .present ws :: rest ∧ t = State.present { s with host := rest } ws) ∨
      ∃ ws rest, s.host = .reset ws :: rest ∧ t = State.resetBlock { s with host := rest } ws := by
  cases hh : s.host with
  | nil => rw [step_of_no_host hh] at h; exact .inl ⟨rfl, h⟩
  | cons a rest =>
    rw [step_of_host hh] at h
    cases a with
    | grant => exact .inr (.inl ⟨rest, rfl, h⟩)
    | present ws => cases h; exact .inr (.inr (.inl ⟨ws, rest, rfl, rfl⟩))
    | reset ws => cases h; exact .inr (.inr (.inr ⟨ws, rest, rfl, rfl⟩))

/-- A step of a running block at a command is the command's `exec`. -/
theorem commandStep_of_fetch {s : State} {i : Instr} (h1 : s.refused = false) (h2 : s.fault = false)
    (hf : s.fetch = .command i) : commandStep s = exec i s := by
  unfold commandStep
  rw [(status_running_iff s).2 ⟨h1, h2⟩]
  simp only [hf]

/-- The instruction of the table's bits, placed where the block fetches, is what the next step fetches. -/
theorem placeWords_pending (s : State) (ws : List Word) :
    (s.placeWords ws).pending = ws ++ s.cmd.drop (s.cpos + ws.length) := by
  have hl : (s.cmd.take s.cpos ++ List.replicate (s.cpos - s.cmd.length) 0#32).length = s.cpos := by simp; omega
  show List.drop s.cpos (s.cmd.take s.cpos ++ List.replicate (s.cpos - s.cmd.length) 0#32 ++ ws ++
    s.cmd.drop (s.cpos + ws.length)) = _
  rw [List.append_assoc, List.drop_append_of_le_length (by omega), List.drop_of_length_le (by omega), List.nil_append]

end Sys2Proof.Machine
end

