-- ==== Sys2Proof/Tests/Slice0.lean ====
section
/-! SUPPORT. The model's own tests: expected results from the vectors of 95_test_vectors and from the encodings of
30_encoding. Then one witness for each statement with hypotheses. -/

namespace Sys2Proof.Tests

open Sys2Proof.Machine

-- One test after another: many kernel evaluations waiting side by side would each hold a thread.
set_option Elab.async false

/-! ### Helpers -/

/-- A block of `c` by `r` chips right after reset, BRIGHTNESS 8, with words presented and transport answers fixed. -/
def block (c r : Nat) (cmd : List Word) (answers : List Bool) : State := State.start ⟨c, r, 8⟩ cmd [] answers

/-- `k` draws that are all true. -/
def accepts (k : Nat) : List Bool := List.replicate k true

/-- Whether an outcome is a next state that meets a test. -/
def next? (o : Host.Outcome State Fault Refusal) (p : State → Bool) : Bool :=
  match o with
  | .next t => p t
  | .fault _ => false
  | .refused _ => false

/-- The storage bytes `0 .. k-1`. -/
def bytes (k : Nat) (s : State) : List Byte := (List.range k).map (fbRead s.fb)

/-- Whether an outcome refuses a block that was just started: reason code, header word, nothing else. -/
def refused? (c : Byte) (h : Word) (s : State) (o : Host.Outcome State Fault Refusal) : Bool :=
  next? o (fun t => decide (t = { s with refused := true, haltInfo := some ⟨c, 0, .header h⟩ }))

/-! ### WellFormed: the one check refuses its ill-formed terms -/

theorem test_wellFormed_short : (Instr.writeColumnAll 2#8 [0xAA#8, 0xBB#8]).wellFormed 3 = false := by decide
theorem test_wellFormed_long : (Instr.writeColumnAll 2#8 [0#8, 0#8, 0#8, 0#8]).wellFormed 3 = false := by decide
theorem test_wellFormed_exact : (Instr.writeColumnAll 2#8 [0xAA#8, 0xBB#8, 0xCC#8]).wellFormed 3 = true := by decide

/-! ### Decoding: words written out from R80, R83, R84 (first four header fields, then the operand words) -/

theorem test_decode_get : decode 1 [0x01#8 ++ 0x00#8 ++ 0x00#8 ++ 0x00#8, 7#32, 0xFFFFFFFF#32]
    = .command (.get 7#32 0xFFFFFFFF#32) := by decide
theorem test_decode_set : decode 1 [0x02#8 ++ 0x02#8 ++ 0x00#8 ++ 0x00#8, 7#32, 9#32]
    = .command (.set .invert 7#32 9#32) := by decide
theorem test_decode_fillRegion : decode 1 [0x03#8 ++ 0x00#8 ++ 0x00#8 ++ 0x00#8, 1#32, 2#32, 3#32, 4#32, 5#32]
    = .command (.fillRegion .off 1#32 2#32 3#32 4#32) := by decide
theorem test_decode_fillAll : decode 1 [0x04#8 ++ 0x01#8 ++ 0x00#8 ++ 0x00#8] = .command (.fillAll .on) := by decide
theorem test_decode_render : decode 1 [0x05#8 ++ 0x00#8 ++ 0x00#8 ++ 0x00#8] = .command .render := by decide
theorem test_decode_writeOne : decode 1 [0x06#8 ++ 0x0F#8 ++ 0xA5#8 ++ 0x00#8, 3#32]
    = .command (.writeOne .displayTest 0xA5#8 3#32) := by decide
theorem test_decode_writeAll : decode 1 [0x07#8 ++ 0x08#8 ++ 0xFF#8 ++ 0x00#8]
    = .command (.writeAll (.digit 7) 0xFF#8) := by decide
theorem test_decode_writeColumnAll : decode 2 [0x08#8 ++ 0xFF#8 ++ 0x00#8 ++ 0x00#8, 0x80#32, 0x01#32]
    = .command (.writeColumnAll 0xFF#8 [0x80#8, 0x01#8]) := by decide

/-- The opcode table's numbering: the header is bits 31 .. 0, `x` is bits 63 .. 32. -/
theorem test_decodeTableWord : decodeTableWord 32 0x01000000 = some (.get 0#32 0#32) ∧
    decodeTableWord 96 0x000000090000000702010000 = some (.set .on 7#32 9#32) ∧
    decodeTableWord 32 0x03020000 = some (.fillRegion .invert 0#32 0#32 0#32 0#32) ∧
    decodeTableWord 32 0x04000000 = some (.fillAll .off) ∧ decodeTableWord 32 0x05000000 = some .render ∧
    decodeTableWord 32 0x060A0500 = some (.writeOne .intensity 5#8 0#32) ∧
    decodeTableWord 32 0x070C0100 = some (.writeAll .shutdown 1#8) ∧
    decodeTableWord 32 0x08070000 = some (.writeColumnAll 7#8 [0#8, 0#8]) ∧
    decodeTableWord 32 0x09000000 = none := by decide +kernel

/-- `withFetchWord` lays the words where the next step of the reset block fetches. -/
theorem test_withFetchWord : State.reset.host = [] ∧
    next? (step (State.reset.withFetchWord 32 0x04010000)) (fun t => t.cpos == 1 && bytes 16 t == List.replicate 16 0xFF#8)
      = true ∧
    next? (step (State.reset.withFetchWord 96 0x000000070000000F02010000))
      (fun t => t.cpos == 3 && fbRead t.fb 15 == 0x80#8) = true := by decide +kernel

/-! ### Refusals (95_test_vectors ENC1 to ENC15), each as one step of a block just started -/

theorem test_refuse_opcode :
    (refused? 1#8 0x00000000#32 (block 1 1 [0x00000000#32] []) (step (block 1 1 [0x00000000#32] []))) = true ∧
    (refused? 1#8 0xFF000000#32 (block 1 1 [0xFF000000#32] []) (step (block 1 1 [0xFF000000#32] []))) = true := by
  decide +kernel

theorem test_refuse_field :
    (refused? 2#8 0x01010000#32 (block 1 1 [0x01010000#32, 0#32, 0#32] [])
      (step (block 1 1 [0x01010000#32, 0#32, 0#32] []))) = true ∧
    (refused? 2#8 0x03040001#32 (block 1 1 [0x03040001#32] []) (step (block 1 1 [0x03040001#32] []))) = true := by
  decide +kernel

theorem test_refuse_state :
    (refused? 3#8 0x02030000#32 (block 1 1 [0x02030000#32] []) (step (block 1 1 [0x02030000#32] []))) = true := by
  decide +kernel

theorem test_refuse_register :
    (refused? 4#8 0x060E0000#32 (block 1 1 [0x060E0000#32, 0#32] []) (step (block 1 1 [0x060E0000#32, 0#32] []))) = true ∧
    (refused? 4#8 0x07100000#32 (block 1 1 [0x07100000#32] []) (step (block 1 1 [0x07100000#32] []))) = true := by
  decide +kernel

theorem test_refuse_payload :
    (refused? 5#8 0x08070000#32 (block 3 1 [0x08070000#32, 1#32, 0x100#32, 3#32] [])
      (step (block 3 1 [0x08070000#32, 1#32, 0x100#32, 3#32] []))) = true ∧
    decode 3 [0x08070000#32, 1#32, 0x100#32] = .wait := by decide +kernel

/-- ENC11: SET with its `y` word missing waits, then completes when the host presents it. -/
theorem test_wait : next? (step (block 1 1 [0x02010000#32, 1#32] []))
      (fun t => decide (t = block 1 1 [0x02010000#32, 1#32] [])) = true ∧
    next? (step ((block 1 1 [0x02010000#32, 1#32] []).present [2#32]))
      (fun t => t.cpos == 3 && bytes 8 t == [0#8, 4#8, 0#8, 0#8, 0#8, 0#8, 0#8, 0#8]) = true := by decide +kernel

/-! ### Addressing (L2-D) -/

theorem test_decodePixel : decodePixel ⟨3, 2⟩ 13 9 = some ⟨3, 5, 1⟩ ∧ decodePixel ⟨3, 2⟩ 23 15 = some ⟨5, 7, 7⟩ ∧
    decodePixel ⟨3, 2⟩ 8 0 = some ⟨2, 0, 0⟩ ∧ decodePixel ⟨3, 2⟩ 0 8 = some ⟨1, 0, 0⟩ ∧
    decodePixel ⟨3, 2⟩ 24 15 = none ∧ decodePixel ⟨3, 2⟩ 23 16 = none ∧ decodePixel ⟨3, 2⟩ 0xFFFFFFFF 0 = none := by decide

theorem test_pixelOfBit : pixelOfBit ⟨3, 2⟩ 29 1 = (13, 9) ∧ pixelOfBit ⟨3, 2⟩ 47 7 = (23, 15) ∧
    pixelOfBit ⟨3, 2⟩ 16 0 = (8, 0) ∧ decodePixel ⟨2 ^ 29, 1⟩ 0xFFFFFFFF 7 = some ⟨0x1FFFFFFF, 7, 7⟩ := by decide +kernel

/-! ### Pixel commands (FB1 to FB16, RST1) -/

/-- FB1: after SET 3, 5, ON, GET 3, 5 answers 1 and GET 5, 3 answers 0. -/
theorem test_get : next? (exec (.get 3#32 5#32) { block 1 1 [] [] with fb := [(3, 0x20#8)] })
      (fun t => t.resp == [true] && t.cpos == 3) = true ∧
    next? (exec (.get 5#32 3#32) { block 1 1 [] [] with fb := [(3, 0x20#8)] }) (fun t => t.resp == [false]) = true := by
  decide +kernel

/-- FB4: GET outside answers 0. -/
theorem test_get_outside : next? (exec (.get 0#32 0xFFFFFFFF#32) { block 1 1 [] [] with fb := [(7, 0xFF#8)] })
    (fun t => t.resp == [false] && t.cpos == 3) = true := by decide +kernel

/-- FB1, FB15: SET lights one bit of the chip's column byte. -/
theorem test_set : next? (exec (.set .on 3#32 5#32) (block 1 1 [] []))
      (fun t => bytes 8 t == [0#8, 0#8, 0#8, 0x20#8, 0#8, 0#8, 0#8, 0#8]) = true ∧
    next? (exec (.set .on 13#32 9#32) (block 3 2 [] [])) (fun t => decide (t.fb = [(29, 2#8)])) = true := by decide +kernel

/-- FB13: SET OFF clears its bit only; FB2: INVERT of the lit pixel makes the byte 0, which is then not listed. -/
theorem test_set_clear : next? (exec (.set .off 0#32 0#32) { block 1 1 [] [] with fb := [(0, 0xFF#8)] })
      (fun t => decide (t.fb = [(0, 0xFE#8)])) = true ∧
    next? (exec (.set .invert 3#32 5#32) { block 1 1 [] [] with fb := [(3, 0x20#8)] }) (fun t => decide (t.fb = [])) = true := by
  decide +kernel

/-- FB10: no wrap of `x0 + w`; FB9: nothing outside. -/
theorem test_fillRegion_clip : next? (exec (.fillRegion .on 5#32 0#32 0xFFFFFFFF#32 1#32) (block 1 1 [] []))
      (fun t => t.cpos == 5 && bytes 8 t == [0#8, 0#8, 0#8, 0#8, 0#8, 1#8, 1#8, 1#8]) = true ∧
    next? (exec (.fillRegion .on 0xFFFFFFFF#32 0#32 0xFFFFFFFF#32 8#32) (block 1 1 [] [])) (fun t => decide (t.fb = []))
      = true := by decide +kernel

/-- FB12, second rectangle: overlapping INVERT. -/
theorem test_fillRegion_invert : next? (exec (.fillRegion .invert 3#32 3#32 3#32 3#32)
      { block 1 1 [] [] with fb := [(2, 0x1C#8), (3, 0x1C#8), (4, 0x1C#8)] })
    (fun t => bytes 8 t == [0#8, 0#8, 0x1C#8, 0x24#8, 0x24#8, 0x38#8, 0#8, 0#8]) = true := by decide +kernel

/-- FB5, FB6. -/
theorem test_fillAll : next? (exec (.fillAll .on) (block 1 1 [] []))
      (fun t => t.cpos == 1 && bytes 8 t == List.replicate 8 0xFF#8) = true ∧
    next? (exec (.fillAll .invert) { block 1 1 [] [] with fb := [(0, 0xFF#8), (7, 0x0F#8)] })
      (fun t => bytes 8 t == [0#8, 0xFF#8, 0xFF#8, 0xFF#8, 0xFF#8, 0xFF#8, 0xFF#8, 0xF0#8]) = true := by decide +kernel

/-! ### Register multiplexer (MUX1 to MUX15, FLT2) -/

/-- MUX2: padding before and after the target pair; only the target chip latches. -/
theorem test_writeOne : next? (exec (.writeOne (.digit 7) 0xFF#8 1#32) (block 3 1 [] (accepts 1)))
    (fun t => t.out == [[0#8, 0#8, 8#8, 0xFF#8, 0#8, 0#8]] && t.chainRead 1 (.digit 7) == some 0xFF#8 && t.cpos == 2
      && decide (t.chain.length = 1)) = true := by decide +kernel

/-- MUX4: a no-op target latches nothing; MUX6: no burst for a chip index outside. -/
theorem test_writeOne_corners : next? (exec (.writeOne .noop 0x55#8 2#32) (block 3 1 [] (accepts 1)))
      (fun t => t.out == [[0#8, 0x55#8, 0#8, 0#8, 0#8, 0#8]] && decide (t.chain = [])) = true ∧
    next? (exec (.writeOne .intensity 5#8 0xFFFFFFFF#32) (block 3 1 [] [])) (fun t => decide (t.out = []) && t.cpos == 2)
      = true := by decide +kernel

/-- MUX7. -/
theorem test_writeAll : next? (exec (.writeAll .shutdown 1#8) (block 3 1 [] (accepts 1)))
    (fun t => t.out == [[0x0C#8, 1#8, 0x0C#8, 1#8, 0x0C#8, 1#8]] && t.cpos == 1
      && (List.range 3).map (fun k => t.chainRead k .shutdown) == List.replicate 3 (some 1#8)) = true := by decide +kernel

/-- FLT2: the transport fails. -/
theorem test_writeAll_fails : next? (exec (.writeAll .shutdown 1#8) (block 3 1 [] [false]))
    (fun t => decide (t.out = []) && t.fault && t.cpos == 0
      && decide (t.haltInfo = some ⟨16#8, 0, .burst [0x0C#8, 1#8, 0x0C#8, 1#8, 0x0C#8, 1#8]⟩)) = true := by decide +kernel

/-- MUX10: the last chip's value is sent first. -/
theorem test_writeColumnAll : next? (exec (.writeColumnAll 2#8 [0xAA#8, 0xBB#8, 0xCC#8]) (block 3 1 [] (accepts 1)))
    (fun t => t.out == [[3#8, 0xCC#8, 3#8, 0xBB#8, 3#8, 0xAA#8]] && t.cpos == 4
      && (List.range 3).map (fun k => t.chainRead k (.digit 2)) == [some 0xAA#8, some 0xBB#8, some 0xCC#8]) = true := by
  decide +kernel

/-- MUX11: no burst for column 8, and the payload is consumed. -/
theorem test_writeColumnAll_outside : next? (exec (.writeColumnAll 8#8 [1#8, 2#8, 3#8]) (block 3 1 [] []))
    (fun t => decide (t.out = []) && t.cpos == 4) = true := by decide +kernel

/-! ### Renderer (RND1, FLT1) and reset (RST1 to RST6) -/

/-- The bursts of RND1. -/
def rnd1 : List Burst := [[1#8, 0x80#8, 1#8, 0#8], [2#8, 0#8, 2#8, 0#8], [3#8, 0#8, 3#8, 0#8], [4#8, 0#8, 4#8, 0#8],
  [5#8, 0#8, 5#8, 0#8], [6#8, 0#8, 6#8, 0#8], [7#8, 0#8, 7#8, 0#8], [8#8, 0#8, 8#8, 1#8]]

/-- Bursts as the record of deliveries holds them, all of one command. -/
def sent (i : Instr) (bs : List Burst) : List Sent := bs.map (fun b => ⟨i, b⟩)

/-- The record of INIT_CHAIN's deliveries to `n` chips, BRIGHTNESS 8, its words as R97 gives them. -/
def initRecord (n : Nat) : List Sent :=
  [(Reg.scanLimit, 7#8), (.decodeMode, 0#8), (.displayTest, 0#8), (.intensity, 8#8), (.shutdown, 1#8)].flatMap
    (fun p => sent (.writeAll p.1 p.2) [(List.replicate n [regAddr p.1, p.2]).flatten])

/-- RND1: chip 1's pair comes first. -/
theorem test_render : next? (exec .render { block 1 2 [] (accepts 8) with fb := [(7, 1#8), (8, 0x80#8)] })
    (fun t => t.out == rnd1
      && t.chainRead 1 (.digit 0) == some 0x80#8 && t.chainRead 0 (.digit 7) == some 1#8
      && t.rendered && !t.initialized && !t.booted) = true := by decide +kernel

/-- RND3: the last burst of INIT_CHAIN after RND1's RENDER makes the display view the column registers' bits. -/
theorem test_displayLit : next? (exec (.writeAll .shutdown 1#8) { block 1 2 [] (accepts 1) with
      delivered := sent .render rnd1 ++ (initRecord 2).take 4, chain := [(8, 1#8), (17, 0x80#8)] })
    (fun t => t.booted && t.displayLit 0 15 == some true && t.displayLit 7 0 == some true) = true := by decide +kernel

/-- R223 step 3: column registers that a WRITE command writes on initialized chips are no RENDER's. -/
theorem test_displayLit_no_render : next? (exec (.writeAll (.digit 7) 0xFF#8) { block 1 1 [] (accepts 1) with
      delivered := initRecord 1 ++ (List.range 7).flatMap (fun k => sent (.writeAll (.digit (Fin.ofNat 8 k)) 0xFF#8)
        [[BitVec.ofNat 8 (k + 1), 0xFF#8]]) })
    (fun t => t.initialized && t.delivered.length == 13 && !t.rendered && !t.booted) = true := by decide +kernel

/-- FLT1: the fourth burst fails. -/
theorem test_render_fails : next? (exec .render (block 1 1 [] [true, true, true, false]))
    (fun t => t.out == [[1#8, 0#8], [2#8, 0#8], [3#8, 0#8]] && t.fault && t.cpos == 0 && decide (t.fb = [])
      && decide (t.haltInfo = some ⟨16#8, 0, .burst [4#8, 0#8]⟩)) = true := by decide +kernel

theorem test_reset : State.reset.status = .running ∧ State.reset.n = 2 ∧ bytes 16 State.reset = List.replicate 16 0#8 ∧
    State.reset.memRead 15 = some 0#8 ∧ State.reset.memRead 16 = none ∧ State.reset.out = [] ∧ State.reset.resp = [] ∧
    State.reset.cpos = 0 ∧ State.reset.haltInfo = none ∧ State.reset.brightness = 8#4 := by decide +kernel

theorem test_reset_memory : Memory.wf State.reset.fb ∧ Memory.sorted State.reset.chain := by decide

/-- RST2 to RST5. -/
theorem test_reset_illegal :
    [(State.powerUp ⟨0, 1, 0⟩), (State.powerUp ⟨1, 1, 16⟩), (State.powerUp ⟨2 ^ 29 + 1, 1, 0⟩),
      (State.powerUp ⟨2 ^ 16, 2 ^ 16, 0⟩)].map (fun s => (s.refused, s.haltInfo))
      = List.replicate 4 (true, some ⟨6#8, 0, .nothing⟩) := by decide +kernel

/-- A block of two chips that a transport failure halted: FAULT, storage, outputs and chain as a run may leave them. -/
def faulted : State :=
  { block 2 1 [0x05000000#32] [] with
    fault := true
    haltInfo := some ⟨16#8, 0, .burst [2#8, 0#8, 2#8, 0#8]⟩
    fb := [(3, 1#8)]
    out := [[1#8, 0#8, 1#8, 0#8]]
    resp := [true]
    chainEpoch := 1 }

/-- RST6: a reset after a fault; the chain goes on as it is. -/
theorem test_reset_after_fault : next? (step { faulted with host := [.reset []] })
    (fun t => decide (t = { block 2 1 [] [] with chainEpoch := 1 })) = true := by decide +kernel

/-- A halted block takes no step, and a step the host grants is an ordinary one. -/
theorem test_halted : next? (step { block 1 1 [0x04010000#32] [] with refused := true }) (fun _ => true) = false ∧
    next? (step { block 1 1 [0x04010000#32] [] with fault := true }) (fun _ => true) = false ∧
    next? (step { block 1 1 [0x04010000#32] [] with host := [.grant] }) (fun t => t.cpos == 1 && decide (t.host = [])) = true := by
  decide +kernel

/-! ### Assembler (R92 to R97, L1-10, PRG2) -/

theorem test_assemble_commands : assembleText 3 8#4 ["SET 4, 4, INVERT ; a comment", "GET 2, 0x14", "", "WRITE_ONE 0, DIGIT0, 0x81",
      "WRITE_ONE 0, 0x0A, 5", "FILL_REGION 4, 4, 8, 8, ON"] =
    some [0x02020000#32, 4#32, 4#32, 0x01000000#32, 2#32, 20#32, 0x06018100#32, 0#32, 0x060A0500#32, 0#32, 0x03010000#32,
      4#32, 4#32, 8#32, 8#32] := by decide +kernel

theorem test_assemble_padding : assembleText 3 8#4 ["WRITE_COLUMN_ALL 0, 0x11", "WRITE_COLUMN_ALL 0, 1, 2, 3, 4"] =
    some [0x08000000#32, 0x11#32, 0#32, 0#32, 0x08000000#32, 1#32, 2#32, 3#32] ∧
    assembleText 1 8#4 ["WRITE_COLUMN_ALL 0, 1, 256"] = some [0x08000000#32, 1#32] := by decide +kernel

theorem test_assemble_pseudo : assembleText 3 8#4 ["INIT_CHAIN", "CLEAR", "PIXEL_TOGGLE 1, 2"] =
    some [0x070B0700#32, 0x07090000#32, 0x070F0000#32, 0x070A0800#32, 0x070C0100#32, 0x04000000#32, 0x05000000#32,
      0x02020000#32, 1#32, 2#32] := by decide +kernel

theorem test_assemble_rejects : ["GET 0x100000000, 0", "WRITE_ALL 0x0D, 0", "WRITE_ALL SHUTDOWN, 256",
      "WRITE_COLUMN_ALL 256", "WRITE_COLUMN_ALL 0, 1, 2, 256, 3", "SET 1, 2, 3", "NOPE"].map (fun l => assembleText 3 8#4 [l]) = List.replicate 7 none := by
  decide +kernel

/-! ### Wire order (R55, K5) -/

theorem test_wireBits : wireBits [0x0A#8, 0x05#8] = [false, false, false, false, true, false, true, false,
    false, false, false, false, false, true, false, true] := by decide

/-! ### Witnesses: for each statement with hypotheses, a state and operands that meet them, at the boundaries of its
clauses -/

theorem test_witness_RoundTripDecodesEncoded : (Instr.get 0xFFFFFFFF#32 0#32).wellFormed 1 = true ∧
    (Instr.writeColumnAll 0xFF#8 [0xFF#8, 0#8, 1#8]).wellFormed 3 = true := by decide

theorem test_witness_DecodedWordsAreEncoded :
    decode 3 [0x08020000#32, 0xAA#32, 0xBB#32, 0xCC#32, 0x05000000#32] = .command (.writeColumnAll 2#8 [0xAA#8, 0xBB#8, 0xCC#8])
      := by decide

/-- Each reason at the ends of its range: the last value accepted beside the first one refused. -/
theorem test_witness_ReservedEncodingsRefused :
    decode 1 [0x00000000#32] = .refuse .reservedOpcode ∧ decode 1 [0x09FFFFFF#32] = .refuse .reservedOpcode ∧
    decode 1 [0x08FF0000#32] = .wait ∧ decode 1 [0x04FFFF01#32] = .refuse .reservedField ∧
    decode 1 [0x05010000#32] = .refuse .reservedField ∧ decode 1 [0x03FF0100#32] = .refuse .reservedField ∧
    decode 1 [0x04030000#32] = .refuse .reservedState ∧ decode 1 [0x04020000#32] = .command (.fillAll .invert) ∧
    decode 1 [0x070DFF00#32] = .refuse .reservedRegister ∧ decode 1 [0x060E0000#32] = .refuse .reservedRegister ∧
    decode 1 [0x07100000#32] = .refuse .reservedRegister ∧ decode 1 [0x070F0000#32] = .command (.writeAll .displayTest 0#8) ∧
    decode 2 [0x08070000#32, 0#32, 0x100#32] = .refuse .reservedPayload ∧
    decode 2 [0x08070000#32, 0#32, 0xFF#32] = .command (.writeColumnAll 7#8 [0#8, 0xFF#8]) := by decide +kernel

theorem test_witness_MaskedMatchIsFieldCheck : BitVec.extractLsb 31 24 0x06FFFF01#32 = opcodeCode .writeOne ∧
    BitVec.extractLsb 31 24 0x05000000#32 = opcodeCode .render := by decide

theorem test_witness_LaterWordsDoNotChangeDecode : decode 1 [0x05000000#32] ≠ .wait ∧ decode 1 [0x02030000#32] ≠ .wait := by
  decide

theorem test_witness_PartialCommandWaits : (Instr.writeColumnAll 0#8 [1#8, 2#8]).wellFormed 2 = true ∧
    0 < (encode (.writeColumnAll 0#8 [1#8, 2#8])).length ∧ 2 < (encode (.writeColumnAll 0#8 [1#8, 2#8])).length ∧
    [0xFFFFFFFF#32].length + 1 < (encode (.writeColumnAll 0#8 [1#8, 2#8])).length ∧
    decode 2 [0x08000000#32, 0xFFFFFFFF#32] = .wait := by decide

/-- The corner chips of a 3 by 2 grid. -/
theorem test_witness_ChipIndexBijection : chipIndex ⟨3, 2⟩ 0 0 = some 0 ∧ chipIndex ⟨3, 2⟩ 2 1 = some 5 ∧ 5 < 3 * 2 := by decide

theorem test_witness_ChipIndexOutsideGridRefused : (⟨3, 2⟩ : Grid).cols ≤ 3 ∧ (⟨3, 2⟩ : Grid).rows ≤ 2 ∧
    chipIndex ⟨3, 2⟩ 3 0 = none ∧ chipIndex ⟨3, 2⟩ 0 2 = none := by decide

/-- The last pixel inside, and the first outside in each direction. -/
theorem test_witness_DecoderAnswersPixelPlace : decodePixel ⟨3, 2⟩ 23 15 = some ⟨15 / 8 + 23 / 8 * 2, 7, 7⟩ ∧
    (⟨3, 2⟩ : Grid).cols * 8 ≤ 24 ∧ decodePixel ⟨3, 2⟩ 24 0 = none ∧ (⟨3, 2⟩ : Grid).rows * 8 ≤ 16 ∧
    decodePixel ⟨3, 2⟩ 0 16 = none := by decide +kernel

theorem test_witness_DecoderIsBijection : decodePixel ⟨3, 2⟩ 23 15 = some ⟨5, 7, 7⟩ ∧ 47 < 8 * (3 * 2) ∧ storeAddr 5 7 = 47 := by
  decide

theorem test_witness_DecoderInverse : decodePixel ⟨3, 2⟩ 23 15 = some ⟨5, 7, 7⟩ ∧ pixelOfBit ⟨3, 2⟩ (storeAddr 5 7) 7 = (23, 15) ∧
    chipOfIndex ⟨3, 2⟩ 5 = (2, 1) := by decide

/-- The widest grid: its last pixel has the last storage address. -/
theorem test_witness_DecodedAddressesInStorage : configLegal ⟨2 ^ 29, 1, 15⟩ = true ∧
    decodePixel ⟨2 ^ 29, 1⟩ 0xFFFFFFFF 7 = some ⟨0x1FFFFFFF, 7, 7⟩ ∧ storeAddr 0x1FFFFFFF 7 = 8 * (2 ^ 29 * 1) - 1 := by
  decide +kernel

/-- Two chips side by side: `W = 16`, `H = 8`. -/
theorem test_witness_GetRespondsPixel : (15#32).toNat < 8 * (block 2 1 [] []).cols.toNat ∧
    (7#32).toNat < 8 * (block 2 1 [] []).rows.toNat ∧ 8 * (block 2 1 [] []).cols.toNat ≤ (16#32).toNat ∧
    8 * (block 2 1 [] []).rows.toNat ≤ (8#32).toNat ∧
    next? (exec (.get 15#32 7#32) { block 2 1 [] [] with fb := [(15, 0x80#8)] }) (fun t => t.resp == [true]) = true := by
  decide +kernel

theorem test_witness_SetWritesOnePixel : decodePixel (block 2 1 [] []).grid 15 7 = some ⟨1, 7, 7⟩ ∧
    decodePixel (block 2 1 [] []).grid 16 7 = none := by decide +kernel

theorem test_witness_SetNeverClamps : 8 * (block 2 1 [] []).cols.toNat ≤ (16#32).toNat ∧
    8 * (block 2 1 [] []).rows.toNat ≤ (8#32).toNat ∧
    next? (exec (.set .on 16#32 7#32) (block 2 1 [] [])) (fun t => decide (t.fb = [])) = true := by decide +kernel

/-- An address that belongs to the rectangle's pixels and one that does not. -/
theorem test_witness_FillRegionFillsClippedRectangle : next? (exec (.fillRegion .on 15#32 7#32 9#32 9#32) (block 2 1 [] []))
    (fun t => fbRead t.fb 15 == 0x80#8 && fbRead t.fb 14 == 0#8 && t.pixel 15 7 == some true && t.pixel 14 7 == some false)
      = true := by decide +kernel

/-- The last storage byte is filled, the address after it is not. -/
theorem test_witness_FillAllFillsEveryByte : next? (exec (.fillAll .on) (block 2 1 [] []))
    (fun t => fbRead t.fb 15 == 0xFF#8 && fbRead t.fb 16 == 0#8) = true := by decide +kernel

theorem test_witness_CoveringRegionIsFillAll : Memory.wf [((3 : Nat), 0x20#8)] ∧ 8 * (block 2 1 [] []).cols.toNat ≤ (16#32).toNat ∧
    8 * (block 2 1 [] []).rows.toNat ≤ (8#32).toNat := by decide +kernel

theorem test_witness_InvertTwiceRestores : Memory.wf ({ block 2 1 [] [] with fb := [(3, 0x20#8), (15, 0xFF#8)] } : State).fb := by
  decide

theorem test_witness_GetAfterSetReadsBit : (15#32).toNat < 8 * (block 2 1 [] []).cols.toNat ∧
    (7#32).toNat < 8 * (block 2 1 [] []).rows.toNat ∧ (block 2 1 [] []).pixel 15 7 = some false := by decide +kernel

theorem test_witness_PixelCommandsNeverFault : isPixel (.get 0#32 0#32) = true ∧ isPixel (.set .on 0#32 0#32) = true ∧
    isPixel (.fillRegion .on 0#32 0#32 1#32 1#32) = true ∧ isPixel (.fillAll .on) = true := by decide

/-- The last chip, and the first index outside; a transport that accepts and one that does not. -/
theorem test_witness_WriteOneReachesOneChip : (2#32).toNat < (block 3 1 [] (accepts 1)).n ∧
    (block 3 1 [] (accepts 1)).answer 0 = true ∧ (block 3 1 [] [false]).answer 0 = false ∧
    (block 3 1 [] []).n ≤ (3#32).toNat ∧
    next? (exec (.writeOne .intensity 5#8 2#32) (block 3 1 [] (accepts 1)))
      (fun t => t.out == [[0x0A#8, 5#8, 0#8, 0#8, 0#8, 0#8]]) = true := by decide +kernel

theorem test_witness_WriteAllReachesEveryChip : (block 3 1 [] (accepts 1)).answer 0 = true ∧
    (block 3 1 [] [false]).answer 0 = false := by decide +kernel

/-- Columns 7 and 8. -/
theorem test_witness_WriteColumnAllGivesEachChipItsValue : [1#8, 2#8, 3#8].length = (block 3 1 [] []).n ∧ (7#8).toNat ≤ 7 ∧
    7 < (8#8).toNat ∧ (block 3 1 [] (accepts 1)).answer 0 = true ∧ (block 3 1 [] [false]).answer 0 = false ∧
    next? (exec (.writeColumnAll 7#8 [1#8, 2#8, 3#8]) (block 3 1 [] (accepts 1)))
      (fun t => t.out == [[8#8, 3#8, 8#8, 2#8, 8#8, 1#8]]) = true := by decide +kernel

theorem test_witness_EqualColumnIsWriteAll : (block 3 1 [] (accepts 1)).answer 0 = true := by decide +kernel

theorem test_witness_WriteTwiceLatchesOnce : isPixel (.writeAll .shutdown 1#8) = false ∧
    Instr.writeAll .shutdown 1#8 ≠ .render ∧ TransportAccepts (block 3 1 [] (accepts 2)) 2 := by
  unfold TransportAccepts; decide +kernel

/-- A render all of whose bursts are taken; one whose first burst is lost, and one whose last is. -/
theorem test_witness_RenderSerializesFrameBuffer : TransportAccepts (block 3 2 [] (accepts 8)) 8 ∧
    TransportFailsAt (block 3 2 [] [false]) 0 ∧ TransportFailsAt (block 3 2 [] (accepts 7 ++ [false])) 7 := by
  unfold TransportFailsAt TransportAccepts; decide +kernel

/-- Chips that have just latched INIT_CHAIN. -/
def initialized : State := { block 3 2 [] (accepts 8) with delivered := initRecord 6 }

theorem test_witness_RenderShowsFrameBuffer : TransportAccepts initialized 8 ∧ initialized.initialized = true ∧
    initialized.booted = false := by unfold TransportAccepts; decide +kernel

/-- Chips with the first four bursts of INIT_CHAIN only, chips with all of it but no RENDER, chips with both. -/
theorem test_witness_DisplayUnspecifiedBeforeBoot :
    ({ initialized with delivered := (initRecord 6).take 4 } : State).initialized = false ∧ initialized.booted = false ∧
    TransportAccepts (block 3 2 [] (accepts 8)) 8 ∧ (block 3 2 [] (accepts 8)).initialized = false ∧
    ({ block 1 2 [] [] with delivered := sent .render rnd1 ++ initRecord 2 } : State).booted = true ∧
    decodePixel (block 1 2 [] []).grid 7 15 = some ⟨1, 7, 7⟩ ∧ (block 1 1 [] (accepts 1)).rendered = false ∧
    Instr.render ∉ [Instr.writeAll (.digit 7) 0xFF#8] ∧
    next? (runCommands [.writeAll (.digit 7) 0xFF#8] (block 1 1 [] (accepts 1))) (fun _ => true) = true := by
  unfold TransportAccepts; decide +kernel

/-- RENDER, GET, RENDER on one chip whose transport takes all 16 bursts, the answers listed in the state. -/
theorem test_witness_RenderIsIdempotent : (∀ j ∈ [Instr.get 1#32 2#32], writesBuffer j = false ∧ isPixel j = true) ∧
    TransportAccepts (block 1 1 [] (accepts 16)) 8 ∧
    ∃ t u v, exec .render (block 1 1 [] (accepts 16)) = .next t ∧ runCommands [.get 1#32 2#32] t = .next u ∧
      TransportAccepts u 8 ∧ exec .render u = .next v :=
  ⟨by decide, by unfold TransportAccepts; decide +kernel, _, _, _, rfl, rfl, by unfold TransportAccepts; decide +kernel, rfl⟩

theorem test_witness_RenderKeepsChipConfiguration : TransportAccepts (block 3 2 [] (accepts 8)) 8 ∧
    ∀ d : Fin 8, Reg.shutdown ≠ .digit d := by unfold TransportAccepts; decide +kernel

theorem test_witness_ClearBlanksBufferAndChain : TransportAccepts (block 1 1 [] (accepts 8)) 8 ∧ Running (block 1 1 [] (accepts 8)) := by
  unfold TransportAccepts Running; decide +kernel

theorem test_witness_BootMakesDisplayDefined : TransportAccepts (block 3 1 [] (accepts 13)) 13 ∧
    Running (block 3 1 [] (accepts 13)) := by unfold TransportAccepts Running; decide +kernel

theorem test_witness_WriteCommandsBypassBuffer : isPixel .render = false ∧ isPixel (.writeOne (.digit 0) 0x81#8 0#32) = false ∧
    isPixel (.writeColumnAll 0#8 [1#8]) = false := by decide

theorem test_witness_TransportFailureFaults : (askedBursts (block 1 1 [] (accepts 3 ++ [false])) .render)[3]? = some [4#8, 0#8] ∧
    TransportFailsAt (block 1 1 [] (accepts 3 ++ [false])) 3 := by
  unfold TransportFailsAt TransportAccepts; decide +kernel

theorem test_witness_OnlyTransportFaults : (Instr.writeColumnAll 0#8 [1#8, 2#8, 3#8]).wellFormed (block 3 1 [] []).n = true := by
  decide +kernel

theorem test_witness_RefusalIsPrecise : (block 1 1 [0x09000000#32] []).host = [] ∧ Running (block 1 1 [0x09000000#32] []) ∧
    decode (block 1 1 [0x09000000#32] []).n ((block 1 1 [0x09000000#32] []).cmd.drop (block 1 1 [0x09000000#32] []).cpos)
      = .refuse .reservedOpcode ∧ configLegal ⟨1, 1, 16⟩ = false := by
  unfold Running; decide +kernel

theorem test_witness_HaltedBlockTakesNoStep : faulted.host = [] ∧ faulted.refused = false ∧ faulted.fault = true ∧
    (State.start ⟨0, 1, 0⟩ [] [] []).host = [] ∧ (State.start ⟨0, 1, 0⟩ [] [] []).refused = true := by decide +kernel

/-- A faulted block to which the host presents a word. -/
theorem test_witness_OnlyResetClearsFlags :
    ∃ t, step { faulted with host := [.present [0#32]] } = .next t ∧
      (∀ ws rest, ({ faulted with host := [.present [0#32]] } : State).host ≠ .reset ws :: rest) ∧
      ({ faulted with host := [.present [0#32]] } : State).fault = true :=
  ⟨_, rfl, fun _ _ => by simp, rfl⟩

theorem test_witness_StepRunsDecodedCommand : (block 1 1 [0x05000000#32] []).host = [] ∧
    (block 1 1 [0x05000000#32] []).refused = false ∧ (block 1 1 [0x05000000#32] []).fault = false ∧
    decode (block 1 1 [0x05000000#32] []).n ((block 1 1 [0x05000000#32] []).cmd.drop 0) = .command .render := by decide +kernel

theorem test_witness_WaitingStepChangesNothing : (block 1 1 [0x02010000#32] []).host = [] ∧
    (block 1 1 [0x02010000#32] []).refused = false ∧ (block 1 1 [0x02010000#32] []).fault = false ∧
    decode (block 1 1 [0x02010000#32] []).n ((block 1 1 [0x02010000#32] []).cmd.drop 0) = .wait := by decide +kernel

theorem test_witness_CposAdvancesByCommandLength : (Instr.writeColumnAll 9#8 [1#8]).wellFormed (block 1 1 [] []).n = true ∧
    (block 1 1 [] []).fault = false ∧ (encode (.writeColumnAll 9#8 [1#8])).length = 2 := by decide +kernel

/-- A burst one byte short, and a burst whose second pair names register 0x0D. -/
theorem test_witness_IllegalBurstRefused : [1#8, 0#8, 1#8].length ≠ 2 * (block 2 1 [] []).n ∧ 1 < (block 2 1 [] []).n ∧
    regOfAddr ([1#8, 0#8, 0x0D#8, 0#8].getD (2 * 1) 0x00#8) = none := by decide +kernel

/-- The legal bounds. -/
theorem test_witness_ResetLoadsAndClears : configLegal faulted.cfgArg = true ∧ configLegal ⟨2 ^ 29, 7, 15⟩ = true ∧
    configLegal ⟨1, 2 ^ 29, 0⟩ = true ∧ configLegal ⟨65537, 65535, 0⟩ = true := by decide +kernel

/-- Each illegal case just past its bound. -/
theorem test_witness_IllegalConfigurationRefused : configLegal ⟨0, 1, 0⟩ = false ∧ configLegal ⟨1, 0, 0⟩ = false ∧
    configLegal ⟨2 ^ 29 + 1, 1, 0⟩ = false ∧ configLegal ⟨1, 2 ^ 29 + 1, 0⟩ = false ∧ configLegal ⟨2 ^ 16, 2 ^ 16, 0⟩ = false ∧
    configLegal ⟨1, 1, 16⟩ = false ∧ configLegal ({ faulted with cfgArg := ⟨0, 1, 0⟩ } : State).cfgArg = false := by
  decide +kernel

/-- A block in mid-run: one pixel lit, one burst out, one register latched, three words consumed. -/
def midRun : State :=
  { block 2 1 [0x02010000#32, 3#32, 5#32, 0x04000000#32] [] with
    fb := [(3, 0x20#8)]
    out := [[0#8, 0#8, 0x0C#8, 1#8]]
    resp := [true]
    cpos := 3
    chain := [(12, 1#8)]
    delivered := [⟨.writeOne .shutdown 1#8 0#32, [0#8, 0#8, 0x0C#8, 1#8]⟩] }

theorem test_midRun_invariant : Invariant midRun where
  storageWf := by decide
  storageBound := by decide +kernel
  chainSorted := by decide
  chainKeys := by
    intro c hc
    obtain rfl : c = (12, 1#8) := by simpa [midRun] using hc
    exact ⟨0, .shutdown, by decide +kernel, by decide, by decide⟩
  bursts := by decide +kernel
  latched := by decide +kernel
  config := ⟨rfl, rfl, rfl⟩
  illegalRefused := by decide +kernel
  oneHalt := by decide +kernel
  haltRecorded := by decide +kernel
  haltPosition := by intro i h; exact nomatch h
  position := by decide +kernel

theorem test_witness_StepKeepsInvariant : Invariant midRun ∧ ∃ t, step midRun = .next t ∧ t.fb = [] ∧ t.cpos = 4 :=
  ⟨test_midRun_invariant, _, rfl, by decide +kernel, by decide +kernel⟩

theorem test_witness_GridNeverChanges : Invariant midRun ∧ ∃ t, step midRun = .next t ∧ t.cols = 2#32 :=
  ⟨test_midRun_invariant, _, rfl, by decide +kernel⟩

theorem test_witness_AssembledCommandsAreWellFormed : assembleLine 2 8#4 (.writeColumnAll 7 [255]) =
    some [.writeColumnAll 7#8 [0xFF#8, 0#8]] ∧ assembleLine 2 8#4 (.writeColumnAll 255 [1, 2, 3]) =
    some [.writeColumnAll 0xFF#8 [1#8, 2#8]] ∧ assembleLine 2 8#4 (.writeColumnAll 7 [255, 0, 256]) =
    some [.writeColumnAll 7#8 [0xFF#8, 0#8]] ∧ (∃ v ∈ [0, 256].take 2, 0xFF < v) := by decide

/-- A WRITE command that asks for no burst, and one that asks for one. -/
theorem test_witness_CommandFrames : isPixel (.writeOne .intensity 5#8 3#32) = false ∧
    askedBursts (block 3 1 [] []) (.writeOne .intensity 5#8 3#32) = [] ∧ isPixel (.get 0#32 0#32) = true ∧
    writesBuffer (.get 0#32 0#32) = false ∧ writesBuffer (.fillAll .on) = true ∧ (Instr.writeOne .intensity 5#8 3#32).wellFormed (block 3 1 [] []).n = true := by decide +kernel

end Sys2Proof.Tests
end

section
/-! PROOFS. The invariant of the machine's states (10_state, 20_memory, 60_exceptions): each operation on the state
keeps it, so every command does, and so every step does. -/

namespace Sys2Proof.Machine

/-! ### A command that is decoded is complete (30_encoding R82, R88) -/

/-- Operand words that complete a command have its operand count, so its words are all present. -/
theorem decodeOperands_command {n : Nat} {hd : Header} {ws : List Word} {i : Instr}
    (h : decodeOperands n hd ws = .command i) : i.wellFormed n = true ∧ (encode i).length ≤ ws.length + 1 := by
  cases hd with
  | fillAll | render | writeAll =>
    cases h
    exact ⟨rfl, by simp [encode, encodeOperands]⟩
  | get | set | fillRegion | writeOne =>
    simp only [decodeOperands] at h
    split at h <;> cases h
    exact ⟨rfl, by simp [encode, encodeOperands]⟩
  | writeColumnAll c =>
    simp only [decodeOperands] at h
    split at h
    case isTrue => cases h
    case isFalse present =>
      split at h <;> cases h
      have hl : min n ws.length = n := Nat.min_eq_left (Nat.not_lt.1 present)
      exact ⟨by simp [Instr.wellFormed, hl], by simp [encode, encodeOperands]⟩

/-- A decoded command is well formed, and its words are among the words decoded. -/
theorem decode_command {n : Nat} {ws : List Word} {i : Instr} (h : decode n ws = .command i) :
    i.wellFormed n = true ∧ (encode i).length ≤ ws.length := by
  cases ws with
  | nil => cases h
  | cons w rest =>
    simp only [decode] at h
    split at h
    · cases h
    · exact decodeOperands_command h

/-- The command at `cpos` is well formed, and its end is not past the words presented. -/
theorem fetch_command {s : State} {i : Instr} (h : s.fetch = .command i) (hp : s.cpos ≤ s.cmd.length) :
    i.wellFormed s.n = true ∧ s.cpos + (encode i).length ≤ s.cmd.length := by
  obtain ⟨hw, hl⟩ := decode_command h
  rw [State.pending, List.length_drop] at hl
  exact ⟨hw, by omega⟩

/-! ### Each operation keeps the invariant -/

section
variable {s : State} (h : Invariant s)
include h

/-- A running block has recorded no halt. -/
theorem Invariant.haltInfo_of_running (hr : Running s) : s.haltInfo = none := by
  obtain ⟨hrefused, hfault⟩ := (status_running_iff s).1 hr
  simpa [hrefused, hfault] using h.haltRecorded

/-- The host's pending actions play no part in the invariant. -/
theorem Invariant.withHost (actions : List HostAction) : Invariant { s with host := actions } := { h with }

theorem Invariant.present (ws : List Word) : Invariant (s.present ws) :=
  { h with position := by simpa using Nat.le_add_right_of_le h.position }

/-- A reset loads the registers the block holds already, so the chain is read with the same `N`. -/
theorem Invariant.resetBlock_n (ws : List Word) : (s.resetBlock ws).n = s.n := by
  obtain ⟨hcols, hrows, -⟩ := h.config
  simp [State.n_eq, hcols, hrows]

theorem Invariant.resetBlock (ws : List Word) : Invariant (s.resetBlock ws) where
  storageWf := ⟨List.Pairwise.nil, by simp⟩
  storageBound := by simp
  chainSorted := h.chainSorted
  chainKeys := by rw [h.resetBlock_n]; exact h.chainKeys
  bursts := by simp
  latched := by rw [h.resetBlock_n]; exact h.latched
  config := ⟨rfl, rfl, rfl⟩
  illegalRefused := by simp
  oneHalt := by simp
  haltRecorded := by cases hc : configLegal s.cfgArg <;> simp [State.resetBlock, State.powerUp, hc]
  haltPosition := by cases hc : configLegal s.cfgArg <;> simp [State.resetBlock, State.powerUp, hc]
  position := Nat.zero_le _

theorem Invariant.refuse (hr : Running s) (r : RefuseReason) : Invariant (s.refuse r) := by
  obtain ⟨-, hfault⟩ := (status_running_iff s).1 hr
  exact { h with
    illegalRefused := by simp
    oneHalt := by simp [hfault]
    haltRecorded := by simp [State.refuse]
    haltPosition := by simp [State.refuse] }

theorem Invariant.advance (hr : Running s) {k : Nat} (hk : s.cpos + k ≤ s.cmd.length) : Invariant (s.advance k) :=
  { h with
    haltPosition := by simp [h.haltInfo_of_running hr]
    position := hk }

theorem Invariant.withStorage {m : List Host.Cell} (resp : List Bool) (hwf : Memory.wf m)
    (hbound : ∀ c ∈ m, c.1 < 8 * s.n) : Invariant { s with fb := m, resp := resp } :=
  { h with storageWf := hwf, storageBound := hbound }

theorem Invariant.afterDraws (k : Nat) : Invariant (s.afterDraws k) := { h with }

/-- A delivered burst is latched by the chain's own registers only (10_state R41, R42). -/
theorem Invariant.deliver (i : Instr) {b : Burst} (hb : burstLegal s.n b = true) : Invariant (s.deliver i b) :=
  { h with
    chainSorted := latchBurst_sorted _ _ h.chainSorted
    chainKeys := latchBurst_keys _ _ h.chainKeys
    bursts := List.forall_mem_append.2 ⟨h.bursts, List.forall_mem_singleton.2 hb⟩
    latched := List.forall_mem_append.2 ⟨h.latched, List.forall_mem_singleton.2 hb⟩ }

/-- A transport failure halts a running block and leaves a chain of which nothing is listed (60_exceptions R193). -/
theorem Invariant.raiseFault (hr : Running s) (b : Burst) : Invariant (s.raiseFault b) := by
  obtain ⟨hrefused, -⟩ := (status_running_iff s).1 hr
  exact { h with
    chainSorted := List.Pairwise.nil
    chainKeys := by simp
    latched := by simp
    oneHalt := by simp [hrefused]
    haltRecorded := by simp
    haltPosition := by simp }

end

/-- Legal emissions of a running block keep the invariant, whichever draw fails. -/
theorem Invariant.emitLoop {s : State} (h : Invariant s) (hr : Running s) (i : Instr) {bs : List Burst} {k : Nat}
    (hbs : ∀ b ∈ bs, burstLegal s.n b = true) (hk : s.cpos + k ≤ s.cmd.length) : Invariant (s.emitLoop i bs k) := by
  induction bs generalizing s with
  | nil => exact h.advance hr hk
  | cons b rest ih =>
    obtain ⟨hb, hrest⟩ := List.forall_mem_cons.1 hbs
    rw [State.emitLoop]
    cases s.answer 0 with
    | true => exact ih ((h.afterDraws 1).deliver i hb) hr hrest hk
    | false => exact (h.afterDraws 1).raiseFault hr b

/-! ### Every command and every step keep the invariant -/

/-- A well-formed command of a running block keeps the invariant, if its words are presented. -/
theorem Invariant.exec {s t : State} (h : Invariant s) (hr : Running s) {i : Instr} (hw : i.wellFormed s.n = true)
    (hk : s.cpos + (encode i).length ≤ s.cmd.length) (he : exec i s = .next t) : Invariant t := by
  cases hp : isPixel i with
  | true =>
    obtain ⟨u, hu, e, -, -, hwf, hbound, -⟩ := exec_pixel i s hp
    obtain rfl : u = t := Host.Outcome.next.inj (hu.symm.trans he)
    rw [e]
    exact (h.withStorage u.resp (hwf h.storageWf) (hbound h.storageBound)).advance hr hk
  | false =>
    obtain ⟨bs, len, hu, hlegal, hasked⟩ := exec_emits i s hp
    obtain rfl := Host.Outcome.next.inj (hu.symm.trans he)
    exact h.emitLoop hr i hlegal ((hasked hw).2 ▸ hk)

theorem Invariant.commandStep {s t : State} (h : Invariant s) (ht : commandStep s = .next t) : Invariant t := by
  obtain ⟨flags, ⟨i, hf, he⟩ | ⟨-, rfl⟩ | ⟨r, -, rfl⟩⟩ := commandStep_cases ht
  · obtain ⟨hw, hk⟩ := fetch_command hf h.position
    exact h.exec ((status_running_iff s).2 flags) hw hk he
  · exact h
  · exact h.refuse ((status_running_iff s).2 flags) r

/-- Settles O56: whichever of its four kinds the step is, that kind keeps the invariant. -/
theorem stepKeepsInvariant : Obligations.StepKeepsInvariant := by
  intro s t h ht
  obtain ⟨-, hc⟩ | ⟨rest, -, hc⟩ | ⟨ws, rest, -, rfl⟩ | ⟨ws, rest, -, rfl⟩ := step_cases ht
  · exact h.commandStep hc
  · exact (h.withHost rest).commandStep hc
  · exact (h.withHost rest).present ws
  · exact (h.withHost rest).resetBlock ws

end Sys2Proof.Machine
end

section
/-! PROOFS. The family 10_state: the kinds of steps, the flags, `cpos`, OUT, RESP and BRIGHTNESS. -/

namespace Sys2Proof.Machine

/-! ### Steps of a running block (10_state R36) -/

/-- Settles O42: the command step of a running block at a command. -/
theorem stepRunsDecodedCommand : Obligations.StepRunsDecodedCommand := by
  intro s i hh hrefused hfault hd
  rw [step_of_no_host hh]
  exact commandStep_of_fetch hrefused hfault hd

/-- A step of a running block whose words decide nothing changes nothing. -/
theorem commandStep_of_wait {s : State} (hr : Running s) (hf : s.fetch = .wait) : commandStep s = .next s := by
  unfold commandStep
  rw [hr]
  simp only [hf]

/-- Settles O43: the command step of a running block that waits. -/
theorem waitingStepChangesNothing : Obligations.WaitingStepChangesNothing := by
  intro s hh hrefused hfault hd
  rw [step_of_no_host hh]
  exact commandStep_of_wait ((status_running_iff s).2 ⟨hrefused, hfault⟩) hd

/-! ### The flags (10_state R27, 60_exceptions R198) -/

/-- A step that answers a next state is of a running block, or the host presents words or resets. -/
theorem step_running_or_host {s t : State} (h : step s = .next t) :
    (s.refused = false ∧ s.fault = false) ∨
      (∃ ws rest, s.host = .present ws :: rest ∧ t = State.present { s with host := rest } ws) ∨
      ∃ ws rest, s.host = .reset ws :: rest := by
  obtain ⟨-, hc⟩ | ⟨rest, -, hc⟩ | present | ⟨ws, rest, hh, -⟩ := step_cases h
  · exact .inl (commandStep_cases hc).1
  · exact .inl (commandStep_cases hc).1
  · exact .inr (.inl present)
  · exact .inr (.inr ⟨ws, rest, hh⟩)

/-- Settles O41: the block's own step needs both flags clear, and presenting words touches neither them nor the rest. -/
theorem onlyResetClearsFlags : Obligations.OnlyResetClearsFlags := by
  intro s t ht noReset
  obtain ⟨hrefused, hfault⟩ | ⟨ws, rest, -, rfl⟩ | ⟨ws, rest, hh⟩ := step_running_or_host ht
  · simp [hrefused, hfault]
  · exact ⟨id, id, fun _ => ⟨rfl, rfl, rfl, rfl, rfl⟩⟩
  · exact absurd hh (noReset ws rest)

/-! ### The command position (10_state R35) -/

/-- A command on a block without FAULT moves `cpos` past itself, or faults and leaves it. -/
theorem exec_cpos {i : Instr} {s : State} (hw : i.wellFormed s.n = true) (hs : s.fault = false) :
    ∃ t, exec i s = .next t ∧
      (t.fault = false ∧ t.cpos = s.cpos + (encode i).length ∨ t.fault = true ∧ t.cpos = s.cpos) := by
  cases hp : isPixel i with
  | true =>
    obtain ⟨t, ht, e, -⟩ := exec_pixel i s hp
    exact ⟨t, ht, .inl ⟨(congrArg State.fault e).trans hs, congrArg State.cpos e⟩⟩
  | false =>
    obtain ⟨bs, len, ht, -, hasked⟩ := exec_emits i s hp
    obtain ⟨-, rfl⟩ := hasked hw
    refine ⟨_, ht, ?_⟩
    obtain ⟨-, -, ⟨hfault, -, hcpos, -⟩ | ⟨hfault, hcpos, -⟩⟩ := emitLoop_frame s i bs (encode i).length
    · exact .inl ⟨hfault.trans hs, hcpos⟩
    · exact .inr ⟨hfault, hcpos⟩

/-- Settles O45, from `exec_cpos`: its two outcomes are told apart by FAULT. -/
theorem cposAdvancesByCommandLength : Obligations.CposAdvancesByCommandLength := by
  refine ⟨fun _ => rfl, fun _ _ => rfl, fun i s hw hs => ?_, fun _ _ => rfl⟩
  obtain ⟨t, ht, ⟨hfault, hcpos⟩ | ⟨hfault, hcpos⟩⟩ := exec_cpos hw hs
  · exact ⟨t, ht, fun _ => hcpos, by simp [hfault]⟩
  · exact ⟨t, ht, by simp [hfault], fun _ => hcpos⟩

/-! ### Bursts (10_state R31, R42) -/

theorem burstLegal_iff {n : Nat} {b : Burst} :
    burstLegal n b = true ↔ b.length = 2 * n ∧ ∀ p < n, (regOfAddr (b.getD (2 * p) 0x00#8)).isSome := by
  simp [burstLegal]

/-- Settles O51: such a burst is not legal, and `emitAll` checks that before it emits. -/
theorem illegalBurstRefused : Obligations.IllegalBurstRefused := by
  intro s i b k hb
  have illegal : ¬ burstLegal s.n b = true := by
    rw [burstLegal_iff]
    rintro ⟨hlen, hreg⟩
    obtain hlen' | ⟨p, hp, hnone⟩ := hb
    · exact hlen' hlen
    · exact Option.isSome_iff_ne_none.1 (hreg p hp) hnone
  simp [emitAll, illegal]

/-- A register code that names a register is one of the 14 of 41_register_protocol R130. -/
theorem named_of_regOfAddr_isSome {c : Byte} (h : (regOfAddr c).isSome) : c ≤ 0x0C#8 ∨ c = 0x0F#8 := by
  have : ¬(c = 0x0D#8 ∨ c = 0x0E#8 ∨ 0x10#8 ≤ c) := fun hc => by simp [(regOfAddr_eq_none c).2 hc] at h
  bv_omega

/-- The register bytes of a legal burst, whatever byte a read past its end would give. -/
theorem burstLegal_named {n : Nat} {b : Burst} (h : burstLegal n b = true) {p : Nat} (hp : p < n) (d : Byte) :
    b.getD (2 * p) d ≤ 0x0C#8 ∨ b.getD (2 * p) d = 0x0F#8 := by
  obtain ⟨hlen, hreg⟩ := burstLegal_iff.1 h
  have hin : 2 * p < b.length := by omega
  have named := named_of_regOfAddr_isSome (hreg p hp)
  rw [List.getD_eq_getElem _ _ hin] at named ⊢
  exact named

/-- A command only appends legal bursts to OUT. -/
theorem exec_out (i : Instr) (s : State) :
    ∃ t bs, exec i s = .next t ∧ t.out = s.out ++ bs ∧ ∀ b ∈ bs, burstLegal s.n b = true := by
  cases hp : isPixel i with
  | true =>
    obtain ⟨t, ht, e, -⟩ := exec_pixel i s hp
    exact ⟨t, [], ht, (congrArg State.out e).trans (List.append_nil _).symm, by simp⟩
  | false =>
    obtain ⟨bs, len, ht, hlegal, -⟩ := exec_emits i s hp
    obtain ⟨sent, e, -⟩ := emitLoop_frame s i bs len
    exact ⟨_, bs.take sent, ht, congrArg State.out e, fun b hb => hlegal b (List.mem_of_mem_take hb)⟩

/-- Settles O46: the appended bursts are legal. -/
theorem burstsAreWholeAndNamed : Obligations.BurstsAreWholeAndNamed := by
  intro i s
  obtain ⟨t, bs, ht, hout, hlegal⟩ := exec_out i s
  exact ⟨t, bs, ht, hout, fun b hb =>
    ⟨(burstLegal_iff.1 (hlegal b hb)).1, fun p hp => burstLegal_named (hlegal b hb) hp _⟩⟩

/-! ### Responses (10_state R32) -/

theorem emitLoop_resp (s : State) (i : Instr) (bs : List Burst) (k : Nat) : (s.emitLoop i bs k).resp = s.resp := by
  obtain ⟨_, e, -⟩ := emitLoop_frame s i bs k
  rw [e]

/-- Every command but GET leaves RESP alone. -/
theorem exec_resp {i : Instr} (hi : ∀ x y, i ≠ .get x y) (s : State) : ∃ t, exec i s = .next t ∧ t.resp = s.resp := by
  cases hp : isPixel i with
  | true =>
    have writes : writesBuffer i = true := by
      cases i with
      | get x y => exact absurd rfl (hi x y)
      | set | fillRegion | fillAll => rfl
      | _ => cases hp
    obtain ⟨t, ht, -, hresp, -⟩ := exec_pixel i s hp
    exact ⟨t, ht, hresp writes⟩
  | false =>
    obtain ⟨bs, len, ht, -⟩ := exec_emits i s hp
    exact ⟨_, ht, emitLoop_resp s i bs len⟩

/-- Settles O47: GET's one bit is `execGet_eq`, every other command is `exec_resp`. -/
theorem onlyGetResponds : Obligations.OnlyGetResponds := by
  intro i s
  by_cases hi : ∃ x y, i = .get x y
  · obtain ⟨x, y, rfl⟩ := hi
    exact ⟨_, execGet_eq x y s, fun _ _ _ => ⟨_, rfl⟩, fun h => absurd rfl (h x y)⟩
  · have other : ∀ x y, i ≠ .get x y := fun x y e => hi ⟨x, y, e⟩
    obtain ⟨t, ht, hresp⟩ := exec_resp other s
    exact ⟨t, ht, fun x y e => absurd e (other x y), fun _ => hresp⟩

/-! ### BRIGHTNESS (10_state R22) -/

/-- The state with another BRIGHTNESS. -/
def State.withBrightness (s : State) (b : BitVec 4) : State := { s with brightness := b }

/-- Emissions neither read nor write BRIGHTNESS. -/
theorem emitLoop_withBrightness (s : State) (b : BitVec 4) (i : Instr) (bs : List Burst) (k : Nat) :
    (s.withBrightness b).emitLoop i bs k = (s.emitLoop i bs k).withBrightness b := by
  induction bs generalizing s with
  | nil => rfl
  | cons c rest ih =>
    have draw : (s.withBrightness b).answer 0 = s.answer 0 := rfl
    rw [State.emitLoop, State.emitLoop, draw]
    cases s.answer 0 with
    | true => exact ih ((s.afterDraws 1).deliver i c)
    | false => rfl

/-- A command that is a list of emissions whatever BRIGHTNESS is ignores it. -/
theorem exec_withBrightness_of_emits {i : Instr} {s : State} {b : BitVec 4} {bs : List Burst} {k : Nat}
    (h : exec i s = .next (s.emitLoop i bs k))
    (h' : exec i (s.withBrightness b) = .next ((s.withBrightness b).emitLoop i bs k)) :
    ∃ t, exec i s = .next t ∧ exec i (s.withBrightness b) = .next (t.withBrightness b) :=
  ⟨_, h, h'.trans (congrArg Host.Outcome.next (emitLoop_withBrightness s b i bs k))⟩

/-- Settles O49: the pixel commands' next states and the other commands' bursts do not speak of BRIGHTNESS. -/
theorem commandsIgnoreBrightness : Obligations.CommandsIgnoreBrightness := by
  intro i s b
  cases i with
  | get x y => exact ⟨_, execGet_eq x y s, execGet_eq x y (s.withBrightness b)⟩
  | set st x y => exact ⟨_, execSet_eq st x y s, execSet_eq st x y (s.withBrightness b)⟩
  | fillRegion st x0 y0 w h =>
    exact ⟨_, execFillRegion_eq st x0 y0 w h s, execFillRegion_eq st x0 y0 w h (s.withBrightness b)⟩
  | fillAll st => exact ⟨_, execFillAll_eq st s, execFillAll_eq st (s.withBrightness b)⟩
  | render => exact exec_withBrightness_of_emits (execRender_eq s) (execRender_eq (s.withBrightness b))
  | writeOne reg v chip =>
    exact exec_withBrightness_of_emits (execWriteOne_eq reg v chip s) (execWriteOne_eq reg v chip (s.withBrightness b))
  | writeAll reg v =>
    exact exec_withBrightness_of_emits (execWriteAll_eq reg v s) (execWriteAll_eq reg v (s.withBrightness b))
  | writeColumnAll c vs =>
    exact exec_withBrightness_of_emits (execWriteColumnAll_eq c vs s) (execWriteColumnAll_eq c vs (s.withBrightness b))

end Sys2Proof.Machine
end

section
/-! PROOFS. The family 20_memory: the decoded addresses, a pixel read back, a WRITE sent twice, the chain the block
never reads, and what a command may change. -/

namespace Sys2Proof.Machine

/-! ### Addresses (20_memory R51, 40_addressing R114, R118) -/

/-- A legal configuration has at most `2^32 - 1` chips (70_reset_and_hazards R221). -/
theorem chips_le_of_configLegal {arg : ConfigArg} (h : configLegal arg = true) :
    arg.cols * arg.rows ≤ 2 ^ 32 - 1 := by
  simp only [configLegal, Bool.and_eq_true, decide_eq_true_eq] at h
  obtain ⟨⟨-, hchips⟩, -⟩ := h
  exact hchips

/-- Settles O13: an address is below `8 * N` and a chip index below `N`, and `N` fits 32 bits. -/
theorem decodedAddressesInStorage : Obligations.DecodedAddressesInStorage := by
  intro arg x y d hlegal hd
  have hchips := chips_le_of_configLegal hlegal
  have haddr : storeAddr d.chip d.column < 8 * (arg.cols * arg.rows) := storeAddr_lt hd
  have hchip : d.chip < arg.cols * arg.rows := (decodePixel_chip_lt hd).1
  omega

/-! ### A pixel read back (20_memory R63, 70_reset_and_hazards R225) -/

/-- A pixel inside the buffer holds a bit. -/
theorem exists_pixel_of_inside {s : State} {x y : Nat} (hx : x < 8 * s.cols.toNat) (hy : y < 8 * s.rows.toNat) :
    ∃ b, s.pixel x y = some b := by
  have hw : x < gridW s.grid := by rw [gridW, State.grid_cols]; omega
  have hh : y < gridH s.grid := by rw [gridH, State.grid_rows]; omega
  exact ⟨_, by rw [State.pixel, decodePixel_eq hw hh, Option.map_some]⟩

/-- A SET leaves the applied bit in its own pixel. -/
theorem pixel_set (st : PixelState) (x y : Nat) (s : State) :
    (s.withFb (fbPixel s.grid st s.fb (x, y))).pixel x y = (s.pixel x y).map (fun b => applyState b st) := by
  simp [State.pixel_eq, fbPixelAt_fbPixel]

/-- Settles O21: the pixel GET reads is the one SET has just written. -/
theorem getAfterSetReadsBit : Obligations.GetAfterSetReadsBit := by
  intro st x y s hx hy
  obtain ⟨b, hb⟩ := exists_pixel_of_inside hx hy
  refine ⟨_, _, b, execSet_eq st x y s, execGet_eq x y _, hb, ?_⟩
  have written : ((s.withFb (fbPixel s.grid st s.fb (x.toNat, y.toNat))).advance 3).pixel x.toNat y.toNat =
      some (applyState b st) := (pixel_set st x.toNat y.toNat s).trans (by rw [hb, Option.map_some])
  rw [written]
  rfl

/-! ### The emitting commands, with the words they take (30_encoding R82) -/

/-- WRITE_COLUMN_ALL's bursts are those R137 asks for, whatever the number of its values. -/
theorem writeColumnList_asked (s : State) (c : Byte) (vs : List Byte) :
    writeColumnList s c vs = askedBursts s (.writeColumnAll c vs) := by
  simp only [writeColumnList, askedBursts]
  by_cases hc : c.toNat ≤ 7
  · rw [if_neg (by omega), if_pos hc, columnBurst, digitAddr_column hc]
    rfl
  · rw [if_pos (by omega), if_neg hc]

/-- Every command that is no pixel command emits the bursts the rules ask for, and is then past its own words: a
function of `N` and storage alone. -/
theorem exec_eq_emitLoop {i : Instr} (s : State) (h : isPixel i = false) :
    exec i s = .next (s.emitLoop i (askedBursts s i) (i.words s.n)) := by
  cases i with
  | get | set | fillRegion | fillAll => cases h
  | writeColumnAll c vs => exact (execWriteColumnAll_eq c vs s).trans (by rw [writeColumnList_asked]; rfl)
  | render | writeOne | writeAll =>
    obtain ⟨bs, len, he, -, hasked⟩ := exec_emits _ s h
    obtain ⟨rfl, rfl⟩ := hasked rfl
    exact he

/-- The bursts asked for depend on `N` and storage alone. -/
theorem askedBursts_congr {s t : State} (hn : t.n = s.n) (hfb : t.fb = s.fb) (i : Instr) :
    askedBursts t i = askedBursts s i := by
  unfold askedBursts
  rw [hn, hfb]

/-- A WRITE command asks for one burst, or none where it is out of range. -/
theorem askedBursts_write {i : Instr} (s : State) (h : isPixel i = false) (hr : i ≠ .render) :
    askedBursts s i = [] ∨ ∃ b, askedBursts s i = [b] := by
  cases i with
  | get | set | fillRegion | fillAll => cases h
  | render => exact absurd rfl hr
  | writeAll reg v => exact .inr ⟨_, rfl⟩
  | writeOne reg v chip =>
    by_cases hc : chip.toNat < s.n
    · exact .inr ⟨_, if_pos hc⟩
    · exact .inl (if_neg hc)
  | writeColumnAll c vs =>
    by_cases hc : c.toNat ≤ 7
    · exact .inr ⟨_, if_pos hc⟩
    · exact .inl (if_neg hc)

/-! ### A WRITE sent twice (20_memory R61) -/

@[simp] theorem chainRead_advance (s : State) (k c : Nat) (r : Reg) :
    (s.advance k).chainRead c r = s.chainRead c r := rfl

@[simp] theorem chainRead_afterDraws (s : State) (k c : Nat) (r : Reg) :
    (s.afterDraws k).chainRead c r = s.chainRead c r := rfl

/-- A chain that already reads as after burst `b` reads the same after another `b`. -/
theorem chainRead_deliver_again {s t : State} {i : Instr} {b : Burst}
    (held : ∀ c r, t.chainRead c r = (s.deliver i b).chainRead c r) (hn : t.n = s.n) (c : Nat) (r : Reg) :
    (t.deliver i b).chainRead c r = t.chainRead c r := by
  rw [chainRead_deliver, held, chainRead_deliver, hn]
  split <;> rfl

/-- One burst whose draw is true: delivered, and the command done. -/
theorem emitLoop_singleton {s : State} (h : s.answer 0 = true) (i : Instr) (b : Burst) (k : Nat) :
    s.emitLoop i [b] k = ((s.afterDraws 1).deliver i b).advance k := by
  simp [State.emitLoop, h]

/-- Settles O27: the second send asks for the same bursts, and a chip that latches its pair again holds what it
held. -/
theorem writeTwiceLatchesOnce : Obligations.WriteTwiceLatchesOnce := by
  intro i s hp hr haccepts
  have once := exec_eq_emitLoop s hp
  obtain asked | ⟨b, asked⟩ := askedBursts_write s hp hr
  · rw [asked, State.emitLoop] at once
    set t := s.advance (i.words s.n)
    have twice := exec_eq_emitLoop t hp
    rw [(askedBursts_congr (t := t) rfl rfl i).trans asked, State.emitLoop] at twice
    exact ⟨_, _, once, twice, ⟨[], by simp [t]⟩, chainRead_advance t _⟩
  · rw [asked, emitLoop_singleton (haccepts 0 (by decide))] at once
    set t := ((s.afterDraws 1).deliver i b).advance (i.words s.n)
    have draw : t.answer 0 = true := (answer_afterDraws s 1 0).trans (haccepts 1 (by decide))
    have twice := exec_eq_emitLoop t hp
    rw [(askedBursts_congr (t := t) rfl rfl i).trans asked, emitLoop_singleton draw] at twice
    refine ⟨_, _, once, twice, ⟨[b], rfl, rfl⟩, fun c r => ?_⟩
    have held : ∀ c r, (t.afterDraws 1).chainRead c r = ((s.afterDraws 1).deliver i b).chainRead c r := fun _ _ => rfl
    rw [chainRead_advance, chainRead_deliver_again held rfl, chainRead_afterDraws]

/-! ### The block never reads the chain (20_memory R50, 10_state R44) -/

/-- The state with another chain view. -/
def State.withChain (s : State) (m : List Host.Cell) (e : Nat) (l : List Sent) : State :=
  { s with chain := m, chainEpoch := e, delivered := l }

/-- Two outcomes stop alike, or leave states that differ only in the chain view. -/
def AgreeButChain (o o' : Host.Outcome State Fault Refusal) : Prop :=
  match o with
  | .next t => ∃ m e l, o' = .next (t.withChain m e l)
  | .fault f => o' = .fault f
  | .refused r => o' = .refused r

/-- Emissions write the chain view and never read it. -/
theorem emitLoop_withChain (s : State) (m : List Host.Cell) (e : Nat) (l : List Sent) (i : Instr) (bs : List Burst)
    (k : Nat) : ∃ m' e' l', (s.withChain m e l).emitLoop i bs k = (s.emitLoop i bs k).withChain m' e' l' := by
  induction bs generalizing s m e l with
  | nil => exact ⟨m, e, l, rfl⟩
  | cons b rest ih =>
    have draw : (s.withChain m e l).answer 0 = s.answer 0 := rfl
    rw [State.emitLoop, State.emitLoop, draw]
    cases s.answer 0 with
    | true => exact ih ((s.afterDraws 1).deliver i b) _ _ _
    | false => exact ⟨[], e + 1, [], rfl⟩

/-- A pixel command leaves the chain view as it is and computes the rest without it. -/
theorem exec_pixel_withChain {i : Instr} (hp : isPixel i = true) (s : State) (m : List Host.Cell) (e : Nat)
    (l : List Sent) : ∃ t, exec i s = .next t ∧ exec i (s.withChain m e l) = .next (t.withChain m e l) := by
  cases i with
  | get x y => exact ⟨_, execGet_eq x y s, execGet_eq x y _⟩
  | set st x y => exact ⟨_, execSet_eq st x y s, execSet_eq st x y _⟩
  | fillRegion st x0 y0 w h => exact ⟨_, execFillRegion_eq st x0 y0 w h s, execFillRegion_eq st x0 y0 w h _⟩
  | fillAll st => exact ⟨_, execFillAll_eq st s, execFillAll_eq st _⟩
  | render | writeOne | writeAll | writeColumnAll => cases hp

/-- No command reads the chain view. -/
theorem exec_withChain (i : Instr) (s : State) (m : List Host.Cell) (e : Nat) (l : List Sent) :
    AgreeButChain (exec i s) (exec i (s.withChain m e l)) := by
  cases hp : isPixel i with
  | true =>
    obtain ⟨t, ht, ht'⟩ := exec_pixel_withChain hp s m e l
    rw [ht]
    exact ⟨m, e, l, ht'⟩
  | false =>
    rw [exec_eq_emitLoop s hp, exec_eq_emitLoop _ hp, askedBursts_congr (s := s) rfl rfl]
    obtain ⟨m', e', l', h⟩ := emitLoop_withChain s m e l i (askedBursts s i) (i.words s.n)
    exact ⟨m', e', l', congrArg Host.Outcome.next h⟩

/-- The block decides from its flags and the words presented what it does, so not by the chain view. -/
theorem commandStep_withChain (s : State) (m : List Host.Cell) (e : Nat) (l : List Sent) :
    AgreeButChain (commandStep s) (commandStep (s.withChain m e l)) := by
  have status : (s.withChain m e l).status = s.status := rfl
  have fetch : (s.withChain m e l).fetch = s.fetch := rfl
  rw [commandStep, commandStep, status, fetch]
  cases s.status with
  | haltedRefused | haltedFault => rfl
  | running =>
    cases s.fetch with
    | command i => exact exec_withChain i s m e l
    | wait | refuse r => exact ⟨m, e, l, rfl⟩

/-- Presenting words and a reset leave the chain view as it is; a granted step is the block's own. -/
theorem hostStep_withChain (a : HostAction) (s : State) (m : List Host.Cell) (e : Nat) (l : List Sent) :
    AgreeButChain (hostStep a s) (hostStep a (s.withChain m e l)) := by
  cases a with
  | grant => exact commandStep_withChain s m e l
  | present ws | reset ws => exact ⟨m, e, l, rfl⟩

/-- The host's pending actions are the same whatever the chain view, so a step is of the same kind. -/
theorem step_withChain (s : State) (m : List Host.Cell) (e : Nat) (l : List Sent) :
    AgreeButChain (step s) (step (s.withChain m e l)) := by
  cases hh : s.host with
  | nil =>
    rw [step_of_no_host hh, step_of_no_host (s := s.withChain m e l) hh]
    exact commandStep_withChain s m e l
  | cons a rest =>
    rw [step_of_host hh, step_of_host (s := s.withChain m e l) hh]
    exact hostStep_withChain a { s with host := rest } m e l

/-- Settles O50, which is `step_withChain` with the outcomes' agreement written out. -/
theorem blockNeverReadsChain : Obligations.BlockNeverReadsChain := step_withChain

/-! ### What a command may change at all (20_memory R59, 60_exceptions R190, R196) -/

theorem isPixel_of_writesBuffer {i : Instr} (h : writesBuffer i = true) : isPixel i = true := by
  cases i with
  | get | set | fillRegion | fillAll => rfl
  | render | writeOne | writeAll | writeColumnAll => cases h

/-- Emissions change nothing but OUT, `cpos`, FAULT, HALT_INFO, the draws and the chain view. -/
theorem emitLoop_changes {s t : State} {i : Instr} {bs : List Burst} {k : Nat} (h : t = s.emitLoop i bs k) :
    t = { s with
      out := t.out, cpos := t.cpos, fault := t.fault, haltInfo := t.haltInfo, answers := t.answers, draws := t.draws
      chain := t.chain, chainEpoch := t.chainEpoch, delivered := t.delivered } := by
  obtain ⟨sent, e, -⟩ := emitLoop_frame s i bs k
  rw [← h] at e
  have hout : t.out = s.out ++ bs.take sent := congrArg State.out e
  rw [hout]
  exact e

/-- Settles O60: a pixel command by `exec_pixel`, every other command as a list of emissions. -/
theorem commandFrames : Obligations.CommandFrames := by
  intro i s
  cases hp : isPixel i with
  | true =>
    obtain ⟨t, ht, e, hresp, hfb, -, -, houtside⟩ := exec_pixel i s hp
    have hcpos : t.cpos = s.cpos + (encode i).length := congrArg State.cpos e
    rw [← hcpos] at e
    refine ⟨t, ht, fun hw => ?_, fun _ hw => ?_, nofun, nofun, houtside⟩
    · rwa [hresp hw] at e
    · rwa [(hfb hw).1] at e
  | false =>
    obtain ⟨bs, len, ht, -, hasked⟩ := exec_emits i s hp
    have changes := emitLoop_changes (s := s) (i := i) (bs := bs) (k := len) rfl
    refine ⟨_, ht, fun hw => ?_, nofun, fun _ => changes, fun _ noBurst hw => ?_, fun a _ => ?_⟩
    · rw [isPixel_of_writesBuffer hw] at hp
      cases hp
    · obtain ⟨rfl, rfl⟩ := hasked hw
      rw [noBurst]
      rfl
    · rw [congrArg State.fb changes]

end Sys2Proof.Machine
end

section
/-! PROOFS. The family 30_encoding: decoding and encoding undo each other, which words wait and which are refused, the
opcode map's masks, the pseudo-instructions' words, and the assembler. -/

namespace Sys2Proof

/-! ### The operands behind a header (30_encoding R82, R84, R88) -/

/-- The opcode of a header. -/
def Header.opcode (hd : Header) : Opcode :=
  match hd with
  | .get => .get
  | .set _ => .set
  | .fillRegion _ => .fillRegion
  | .fillAll _ => .fillAll
  | .render => .render
  | .writeOne _ _ => .writeOne
  | .writeAll _ _ => .writeAll
  | .writeColumnAll _ => .writeColumnAll

/-- A command and its header have the same opcode. -/
@[simp] theorem Instr.header_opcode (i : Instr) : i.header.opcode = i.opcode := by cases i <;> rfl

/-- A well-formed command has the operand words R82 gives its opcode. -/
theorem encodeOperands_length {n : Nat} {i : Instr} (hw : i.wellFormed n = true) :
    (encodeOperands i).length = operandCount n i.opcode := by
  cases i with
  | get | set | fillRegion | fillAll | render | writeOne | writeAll => rfl
  | writeColumnAll c vs =>
    have hl : vs.length = n := by simpa [Instr.wellFormed] using hw
    simp [encodeOperands, Instr.opcode, operandCount, hl]

/-- Once its `n` payload words are present, a WRITE_COLUMN_ALL is refused or complete. -/
theorem decodeOperands_column {n : Nat} {ws : List Word} (present : n ≤ ws.length) (c : Byte) :
    decodeOperands n (.writeColumnAll c) ws =
      if ∃ w ∈ ws.take n, payloadReserved w ≠ 0#24 then .refuse .reservedPayload
      else .command (.writeColumnAll c ((ws.take n).map payloadByte)) := by
  rw [decodeOperands, if_neg (Nat.not_lt.2 present)]
  simp only [List.any_eq_true, bne_iff_ne]

/-- The operand words of a command complete that command. -/
theorem decodeOperands_encodeOperands {n : Nat} {i : Instr} (hw : i.wellFormed n = true) :
    decodeOperands n i.header (encodeOperands i) = .command i := by
  cases i with
  | get | set | fillRegion | fillAll | render | writeOne | writeAll => rfl
  | writeColumnAll c vs =>
    obtain rfl : vs.length = n := by simpa [Instr.wellFormed] using hw
    have clean : ¬ ∃ w ∈ encodeOperands (.writeColumnAll c vs), payloadReserved w ≠ 0#24 := by
      rintro ⟨w, hw, reserved⟩
      obtain ⟨v, -, rfl⟩ := List.mem_map.1 hw
      exact reserved (payloadReserved_zeroExtend v)
    have count : (encodeOperands (.writeColumnAll c vs)).length = vs.length := List.length_map ..
    have bytes : (encodeOperands (.writeColumnAll c vs)).map payloadByte = vs := by
      rw [encodeOperands, List.map_map]
      exact (List.map_congr_left fun v _ => payloadByte_zeroExtend v).trans (List.map_id vs)
    rw [Instr.header, decodeOperands_column count.ge, List.take_of_length_le count.le, if_neg clean, bytes]

/-- The operands are the first `K` words behind the header: words past them change nothing. -/
theorem decodeOperands_append {n : Nat} {hd : Header} {ws : List Word} (hk : operandCount n hd.opcode ≤ ws.length)
    (more : List Word) : decodeOperands n hd (ws ++ more) = decodeOperands n hd ws := by
  cases hd with
  | fillAll | render | writeAll => rfl
  | writeOne =>
    match ws, hk with
    | _ :: _, _ => rfl
  | get | set =>
    match ws, hk with
    | _ :: _ :: _, _ => rfl
  | fillRegion =>
    match ws, hk with
    | _ :: _ :: _ :: _ :: _, _ => rfl
  | writeColumnAll c =>
    have hn : n ≤ ws.length := hk
    have hn' : n ≤ (ws ++ more).length := hn.trans (by simp)
    rw [decodeOperands_column hn, decodeOperands_column hn', List.take_append_of_le_length hn]

/-- The decoder waits behind a header exactly while fewer than `K` words are present. -/
theorem decodeOperands_eq_wait_iff {n : Nat} {hd : Header} {ws : List Word} :
    decodeOperands n hd ws = .wait ↔ ws.length < operandCount n hd.opcode := by
  cases hd with
  | fillAll | render | writeAll => simp [decodeOperands, Header.opcode, operandCount]
  | writeOne =>
    match ws with
    | [] | _ :: _ => simp [decodeOperands, Header.opcode, operandCount]
  | get | set =>
    match ws with
    | [] | [_] | _ :: _ :: _ => simp [decodeOperands, Header.opcode, operandCount]
  | fillRegion =>
    match ws with
    | [] | [_] | [_, _] | [_, _, _] | _ :: _ :: _ :: _ :: _ => simp [decodeOperands, Header.opcode, operandCount]
  | writeColumnAll c =>
    rw [Header.opcode, operandCount]
    by_cases short : ws.length < n
    · simp [decodeOperands, short]
    · rw [decodeOperands_column (Nat.not_lt.1 short)]
      split <;> simp [short]

/-- Operands that complete a command are that command's own operand words, and more words. -/
theorem decodeOperands_eq_command {n : Nat} {hd : Header} {ws : List Word} {i : Instr}
    (h : decodeOperands n hd ws = .command i) : hd = i.header ∧ encodeOperands i <+: ws := by
  cases hd with
  | fillAll | render | writeAll =>
    cases h
    exact ⟨rfl, List.nil_prefix⟩
  | get | set | fillRegion | writeOne =>
    simp only [decodeOperands] at h
    split at h <;> cases h
    exact ⟨rfl, _, rfl⟩
  | writeColumnAll c =>
    have present : n ≤ ws.length := by
      by_contra short
      have waits : decodeOperands n (.writeColumnAll c) ws = .wait := decodeOperands_eq_wait_iff.2 (Nat.not_le.1 short)
      rw [waits] at h
      cases h
    rw [decodeOperands_column present] at h
    split at h
    case isTrue => cases h
    case' isFalse clean => cases h
    have bytes : encodeOperands (.writeColumnAll c ((ws.take n).map payloadByte)) = ws.take n := by
      rw [encodeOperands, List.map_map]
      refine (List.map_congr_left fun w hw => ?_).trans (List.map_id _)
      exact zeroExtend_payloadByte (by_contra fun reserved => clean ⟨w, hw, reserved⟩)
    exact ⟨rfl, by rw [bytes]; exact List.take_prefix n ws⟩

/-! ### Decoding what was encoded, and the other way round (30_encoding R88, R93) -/

theorem decode_of_error {h : Word} {r : RefuseReason} (hd : decodeHeader h = .error r) (n : Nat) (ws : List Word) :
    decode n (h :: ws) = .refuse r := by simp only [decode, hd]

theorem decode_of_ok {h : Word} {hd : Header} (hh : decodeHeader h = .ok hd) (n : Nat) (ws : List Word) :
    decode n (h :: ws) = decodeOperands n hd ws := by simp only [decode, hh]

/-- Behind the header word of a command the decoder reads that command's operands. -/
theorem decode_encodeHeader (n : Nat) (i : Instr) (ws : List Word) :
    decode n (encodeHeader i :: ws) = decodeOperands n i.header ws :=
  decode_of_ok (decodeHeader_encodeHeader i) n ws

/-- Settles O1: the header word gives the header, and behind it the operand words give the command; the words that
follow are past the operands. -/
theorem roundTripDecodesEncoded : Obligations.RoundTripDecodesEncoded := by
  intro n i rest hw
  have enough : operandCount n i.header.opcode ≤ (encodeOperands i).length := by
    rw [Instr.header_opcode, encodeOperands_length hw]
  rw [encode, List.cons_append, decode_encodeHeader, decodeOperands_append enough, decodeOperands_encodeOperands hw]

/-- Settles O2: the header word is the command's own by `encodeHeader_of_decodeHeader`, the words behind it by
`decodeOperands_eq_command`. -/
theorem decodedWordsAreEncoded : Obligations.DecodedWordsAreEncoded := by
  intro n ws i h
  refine ⟨(Machine.decode_command h).1, ?_⟩
  cases ws with
  | nil => cases h
  | cons w ws =>
    cases hh : decodeHeader w with
    | error r => rw [decode_of_error hh] at h; cases h
    | ok hd =>
      rw [decode_of_ok hh] at h
      obtain ⟨rfl, rest, rfl⟩ := decodeOperands_eq_command h
      exact ⟨rest, by rw [encode, encodeHeader_of_decodeHeader hh, List.cons_append]⟩

/-! ### Words still to come (30_encoding R82, R88) -/

/-- Settles O6: a decode that does not wait has all its operand words, and reads no word past them. -/
theorem laterWordsDoNotChangeDecode : Obligations.LaterWordsDoNotChangeDecode := by
  intro n ws more decided
  cases ws with
  | nil => exact absurd rfl decided
  | cons w ws =>
    rw [List.cons_append]
    cases hh : decodeHeader w with
    | error r => rw [decode_of_error hh, decode_of_error hh]
    | ok hd =>
      rw [decode_of_ok hh] at decided ⊢
      rw [decode_of_ok hh]
      exact decodeOperands_append (Nat.not_lt.1 (mt decodeOperands_eq_wait_iff.2 decided)) more

/-- Behind the header word of a command the decoder waits while an operand word is missing, whatever the others are. -/
theorem decode_encodeHeader_short {n : Nat} {i : Instr} {ws : List Word} (hw : i.wellFormed n = true)
    (short : ws.length < (encodeOperands i).length) : decode n (encodeHeader i :: ws) = .wait := by
  rw [decode_encodeHeader, decodeOperands_eq_wait_iff, Instr.header_opcode, ← encodeOperands_length hw]
  exact short

/-- Settles O7: the empty list waits, and the first words of an encoding are its header word and too few operands. -/
theorem partialCommandWaits : Obligations.PartialCommandWaits := by
  refine ⟨fun n i k hw hk => ?_, fun n i ws hw short => ?_⟩
  · cases k with
    | zero => rfl
    | succ k =>
      refine decode_encodeHeader_short hw ?_
      rw [List.length_take]
      exact Nat.lt_of_le_of_lt (Nat.min_le_left ..) (Nat.succ_lt_succ_iff.1 hk)
  · exact decode_encodeHeader_short hw (Nat.succ_lt_succ_iff.1 short)

/-! ### The checks of the header word (30_encoding R88) -/

/-- The reserved-field checks of R88, on the fields of a header word. -/
def ReservedFields (h : Word) : Prop :=
  rsvField h ≠ 0#8 ∨ ((opcField h = 0x01#8 ∨ opcField h = 0x05#8) ∧ subField h ≠ 0#8) ∨
    (¬(opcField h = 0x06#8 ∨ opcField h = 0x07#8) ∧ valField h ≠ 0#8)

/-- What `decodeHeader` answers for an opcode when no reserved field is set. -/
def headerOf (h : Word) (op : Opcode) : Except RefuseReason Header :=
  match op with
  | .get => .ok .get
  | .set => withState h .set
  | .fillRegion => withState h .fillRegion
  | .fillAll => withState h .fillAll
  | .render => .ok .render
  | .writeOne => withRegister h (fun r => .writeOne r (valField h))
  | .writeAll => withRegister h (fun r => .writeAll r (valField h))
  | .writeColumnAll => .ok (.writeColumnAll (subField h))

theorem opcodeCode_injective : Function.Injective opcodeCode := fun a b h =>
  Option.some.inj (by rw [← opcodeOfCode_opcodeCode a, h, opcodeOfCode_opcodeCode b])

/-- The codes R83 gives an opcode are `0x01` to `0x08`. -/
theorem opcodeCode_legal (op : Opcode) : 0x01#8 ≤ opcodeCode op ∧ opcodeCode op ≤ 0x08#8 := by
  cases op <;> decide

section
variable {h : Word} {op : Opcode} (ho : opcField h = opcodeCode op)
include ho

/-- The reserved-field checks as `decodeHeader` makes them, by opcode. -/
theorem reservedFields_iff : ReservedFields h ↔
    rsvField h ≠ 0#8 ∨ ((op = .get ∨ op = .render) ∧ subField h ≠ 0#8) ∨
      (¬(op = .writeOne ∨ op = .writeAll) ∧ valField h ≠ 0#8) := by
  have code (o : Opcode) : op = o ↔ opcField h = opcodeCode o := by rw [ho, opcodeCode_injective.eq_iff]
  simp only [code]
  rfl

/-- A reserved field refuses whatever the sub-operand's code is. -/
theorem decodeHeader_of_reservedFields (hf : ReservedFields h) : decodeHeader h = .error .reservedField := by
  rw [reservedFields_iff ho] at hf
  simp only [decodeHeader, ho, opcodeOfCode_opcodeCode]
  rcases hf with rsv | sub | val
  · exact if_pos rsv
  · rw [if_pos sub, ite_self]
  · rw [if_pos val, ite_self, ite_self]

theorem decodeHeader_of_not_reservedFields (hf : ¬ ReservedFields h) : decodeHeader h = headerOf h op := by
  rw [reservedFields_iff ho, not_or, not_or] at hf
  obtain ⟨rsv, sub, val⟩ := hf
  simp only [decodeHeader, ho, opcodeOfCode_opcodeCode]
  rw [if_neg rsv, if_neg sub, if_neg val]
  rfl
end

theorem decodeHeader_of_reservedOpcode {h : Word} (ho : opcField h = 0x00#8 ∨ 0x09#8 ≤ opcField h) :
    decodeHeader h = .error .reservedOpcode := by
  simp only [decodeHeader, (opcodeOfCode_eq_none _).2 ho]

/-- The first check of R88's order that refuses a header word, by its reason. -/
inductive HeaderRefused (h : Word) : RefuseReason → Prop
  | opcode (ho : opcField h = 0x00#8 ∨ 0x09#8 ≤ opcField h) : HeaderRefused h .reservedOpcode
  | field (ho : 0x01#8 ≤ opcField h ∧ opcField h ≤ 0x08#8) (hf : ReservedFields h) : HeaderRefused h .reservedField
  | state (hf : ¬ ReservedFields h) (ho : opcField h = 0x02#8 ∨ opcField h = 0x03#8 ∨ opcField h = 0x04#8)
      (hs : 0x03#8 ≤ subField h) : HeaderRefused h .reservedState
  | register (hf : ¬ ReservedFields h) (ho : opcField h = 0x06#8 ∨ opcField h = 0x07#8)
      (hs : subField h = 0x0D#8 ∨ subField h = 0x0E#8 ∨ 0x10#8 ≤ subField h) : HeaderRefused h .reservedRegister

theorem withState_eq_error_iff {h : Word} {k : PixelState → Header} {r : RefuseReason} :
    withState h k = .error r ↔ r = .reservedState ∧ 0x03#8 ≤ subField h := by
  rw [← stateOfCode_eq_none, withState]
  cases stateOfCode (subField h) with
  | none => simp [eq_comm]
  | some st => simp

theorem withRegister_eq_error_iff {h : Word} {k : Reg → Header} {r : RefuseReason} :
    withRegister h k = .error r ↔
      r = .reservedRegister ∧ (subField h = 0x0D#8 ∨ subField h = 0x0E#8 ∨ 0x10#8 ≤ subField h) := by
  rw [← regOfAddr_eq_none, withRegister]
  cases regOfAddr (subField h) with
  | none => simp [eq_comm]
  | some reg => simp

/-- An `OPC` that is no reserved one is an opcode's. -/
theorem exists_opcode {c : Byte} (hc : ¬(c = 0x00#8 ∨ 0x09#8 ≤ c)) : ∃ op, c = opcodeCode op := by
  rw [← opcodeOfCode_eq_none, ← ne_eq, Option.ne_none_iff_exists'] at hc
  obtain ⟨op, hop⟩ := hc
  exact ⟨op, (opcodeCode_of_opcodeOfCode hop).symm⟩

theorem exists_opcode_of_legal {c : Byte} (hc : 0x01#8 ≤ c ∧ c ≤ 0x08#8) : ∃ op, c = opcodeCode op :=
  exists_opcode (by bv_omega)

/-- A state or register refusal is the sub-operand's, under an opcode that has one. -/
theorem headerOf_refused {h : Word} {op : Opcode} {r : RefuseReason} (ho : opcField h = opcodeCode op)
    (hf : ¬ ReservedFields h) (hr : headerOf h op = .error r) : HeaderRefused h r := by
  cases op with
  | get | render | writeColumnAll => cases hr
  | set =>
    obtain ⟨rfl, hs⟩ := withState_eq_error_iff.1 hr
    exact .state hf (.inl ho) hs
  | fillRegion =>
    obtain ⟨rfl, hs⟩ := withState_eq_error_iff.1 hr
    exact .state hf (.inr (.inl ho)) hs
  | fillAll =>
    obtain ⟨rfl, hs⟩ := withState_eq_error_iff.1 hr
    exact .state hf (.inr (.inr ho)) hs
  | writeOne =>
    obtain ⟨rfl, hs⟩ := withRegister_eq_error_iff.1 hr
    exact .register hf (.inl ho) hs
  | writeAll =>
    obtain ⟨rfl, hs⟩ := withRegister_eq_error_iff.1 hr
    exact .register hf (.inr ho) hs

/-- `decodeHeader` refuses by the first check of R88's order that applies. -/
theorem decodeHeader_eq_error_iff {h : Word} {r : RefuseReason} :
    decodeHeader h = .error r ↔ HeaderRefused h r := by
  constructor
  · intro hr
    by_cases hc : opcField h = 0x00#8 ∨ 0x09#8 ≤ opcField h
    · rw [decodeHeader_of_reservedOpcode hc] at hr
      cases hr
      exact .opcode hc
    obtain ⟨op, ho⟩ := exists_opcode hc
    by_cases hf : ReservedFields h
    · rw [decodeHeader_of_reservedFields ho hf] at hr
      cases hr
      exact .field (ho ▸ opcodeCode_legal op) hf
    · rw [decodeHeader_of_not_reservedFields ho hf] at hr
      exact headerOf_refused ho hf hr
  · rintro (ho | ⟨ho, hf⟩ | ⟨hf, ho, hs⟩ | ⟨hf, ho, hs⟩)
    · exact decodeHeader_of_reservedOpcode ho
    · obtain ⟨op, hop⟩ := exists_opcode_of_legal ho
      exact decodeHeader_of_reservedFields hop hf
    · rcases ho with ho | ho | ho
      · exact (decodeHeader_of_not_reservedFields (op := .set) ho hf).trans (withState_eq_error_iff.2 ⟨rfl, hs⟩)
      · exact (decodeHeader_of_not_reservedFields (op := .fillRegion) ho hf).trans (withState_eq_error_iff.2 ⟨rfl, hs⟩)
      · exact (decodeHeader_of_not_reservedFields (op := .fillAll) ho hf).trans (withState_eq_error_iff.2 ⟨rfl, hs⟩)
    · rcases ho with ho | ho
      · exact (decodeHeader_of_not_reservedFields (op := .writeOne) ho hf).trans (withRegister_eq_error_iff.2 ⟨rfl, hs⟩)
      · exact (decodeHeader_of_not_reservedFields (op := .writeAll) ho hf).trans (withRegister_eq_error_iff.2 ⟨rfl, hs⟩)

/-- Only a WRITE_COLUMN_ALL header is one of a command with payload words. -/
theorem decodeHeader_eq_column {h : Word} {c : Byte} (hd : decodeHeader h = .ok (.writeColumnAll c)) :
    ¬ ReservedFields h ∧ opcField h = 0x08#8 := by
  have legal : ¬(opcField h = 0x00#8 ∨ 0x09#8 ≤ opcField h) := fun ho => by
    rw [decodeHeader_of_reservedOpcode ho] at hd
    cases hd
  obtain ⟨op, ho⟩ := exists_opcode legal
  have hf : ¬ ReservedFields h := fun hf => by
    rw [decodeHeader_of_reservedFields ho hf] at hd
    cases hd
  rw [decodeHeader_of_not_reservedFields ho hf] at hd
  cases op with
  | writeColumnAll => exact ⟨hf, ho⟩
  | get | render => cases hd
  | set | fillRegion | fillAll =>
    rw [headerOf, withState] at hd
    split at hd <;> cases hd
  | writeOne | writeAll =>
    rw [headerOf, withRegister] at hd
    split at hd <;> cases hd

/-- A refusal other than a payload word's is the header word's. -/
theorem decode_eq_refuse_iff {n : Nat} {h : Word} {rest : List Word} {r : RefuseReason} (hr : r ≠ .reservedPayload) :
    decode n (h :: rest) = .refuse r ↔ HeaderRefused h r := by
  rw [← decodeHeader_eq_error_iff]
  cases hh : decodeHeader h with
  | error r' => simp [decode_of_error hh]
  | ok hd =>
    rw [decode_of_ok hh]
    exact ⟨fun hrefuse => absurd (decodeOperands_refuse hrefuse).1 hr, nofun⟩

/-- A payload word is looked at once all are present, behind a header word that no check refuses. -/
theorem decode_eq_refuse_reservedPayload_iff {n : Nat} {h : Word} {rest : List Word} :
    decode n (h :: rest) = .refuse .reservedPayload ↔
      ¬ ReservedFields h ∧ opcField h = 0x08#8 ∧ n ≤ rest.length ∧ ∃ w ∈ rest.take n, payloadReserved w ≠ 0#24 := by
  constructor
  · intro hrefuse
    cases hh : decodeHeader h with
    | error r =>
      rw [decode_of_error hh] at hrefuse
      cases hrefuse
      nomatch decodeHeader_eq_error_iff.1 hh
    | ok hd =>
      rw [decode_of_ok hh] at hrefuse
      obtain ⟨-, ⟨c, rfl⟩, present, reserved⟩ := decodeOperands_refuse hrefuse
      obtain ⟨hf, ho⟩ := decodeHeader_eq_column hh
      exact ⟨hf, ho, present, reserved⟩
  · rintro ⟨hf, ho, present, reserved⟩
    have hh : decodeHeader h = .ok (.writeColumnAll (subField h)) :=
      decodeHeader_of_not_reservedFields (op := .writeColumnAll) ho hf
    rw [decode_of_ok hh, decodeOperands_column present, if_pos reserved]

/-- Settles O4: each clause is a constructor of `HeaderRefused`, or the payload check. -/
theorem reservedEncodingsRefused : Obligations.ReservedEncodingsRefused := by
  intro n h rest
  refine ⟨(decode_eq_refuse_iff (by decide)).trans ⟨fun | .opcode ho => ho, .opcode⟩,
    (decode_eq_refuse_iff (by decide)).trans ⟨fun | .field ho hf => ⟨ho, hf⟩, fun ⟨ho, hf⟩ => .field ho hf⟩,
    (decode_eq_refuse_iff (by decide)).trans ⟨fun | .state hf ho hs => ⟨hf, ho, hs⟩, fun ⟨hf, ho, hs⟩ => .state hf ho hs⟩,
    (decode_eq_refuse_iff (by decide)).trans
      ⟨fun | .register hf ho hs => ⟨hf, ho, hs⟩, fun ⟨hf, ho, hs⟩ => .register hf ho hs⟩,
    decode_eq_refuse_reservedPayload_iff, fun hrefuse => nomatch (decode_eq_refuse_iff (by decide)).1 hrefuse⟩

/-! ### Mask and match (30_encoding R83) -/

theorem headerWord_and (o s v r o' s' v' r' : Byte) :
    headerWord o s v r &&& headerWord o' s' v' r' = headerWord (o &&& o') (s &&& s') (v &&& v') (r &&& r') := by
  have fields : o ++ s ++ v ++ r &&& o' ++ s' ++ v' ++ r' = (o &&& o') ++ (s &&& s') ++ (v &&& v') ++ (r &&& r') := by
    simp only [BitVec.and_append]
  exact fields

theorem headerWord_inj {o s v r o' s' v' r' : Byte} :
    headerWord o s v r = headerWord o' s' v' r' ↔ o = o' ∧ s = s' ∧ v = v' ∧ r = r' := by
  refine ⟨fun e => ⟨?_, ?_, ?_, ?_⟩, fun ⟨ho, hs, hv, hr⟩ => by rw [ho, hs, hv, hr]⟩
  · simpa only [opcField_headerWord] using congrArg opcField e
  · simpa only [subField_headerWord] using congrArg subField e
  · simpa only [valField_headerWord] using congrArg valField e
  · simpa only [rsvField_headerWord] using congrArg rsvField e

/-- The mask covers `OPC`, `RSV`, and those of `SUB` and `VAL` the opcode leaves no operand in. -/
theorem opcodeMask_eq (op : Opcode) : opcodeMask op = headerWord 0xFF#8
    (if op = .get ∨ op = .render then 0xFF#8 else 0x00#8)
    (if ¬(op = .writeOne ∨ op = .writeAll) then 0xFF#8 else 0x00#8) 0xFF#8 := by
  cases op <;> decide

/-- A field under a mask of all or none of its bits. -/
theorem and_ite_eq_zero_iff (p : Prop) [Decidable p] (b : Byte) :
    b &&& (if p then 0xFF#8 else 0x00#8) = 0x00#8 ↔ ¬(p ∧ b ≠ 0x00#8) := by
  split <;> rename_i hp
  · have keep : b &&& 0xFF#8 = b := BitVec.and_allOnes
    rw [keep]
    tauto
  · simp [hp]

/-- Under a legal opcode the masked header word is the opcode's match just when no reserved field is set. -/
theorem and_opcodeMask_eq_opcodeMatch_iff {h : Word} {op : Opcode} (ho : opcField h = opcodeCode op) :
    h &&& opcodeMask op = opcodeMatch op ↔ ¬ ReservedFields h := by
  have keep (b : Byte) : b &&& 0xFF#8 = b := BitVec.and_allOnes
  have masked : h &&& opcodeMask op = opcodeMatch op ↔
      ¬((op = .get ∨ op = .render) ∧ subField h ≠ 0#8) ∧ ¬(¬(op = .writeOne ∨ op = .writeAll) ∧ valField h ≠ 0#8) ∧
        rsvField h = 0#8 := by
    conv_lhs => rw [← headerWord_fields h]
    rw [opcodeMask_eq, headerWord_and, opcodeMatch, headerWord_inj, ho, keep, keep, and_ite_eq_zero_iff,
      and_ite_eq_zero_iff]
    exact and_iff_right rfl
  rw [masked, reservedFields_iff ho]
  tauto

/-- Settles O5: both sides say that a reserved field is set. -/
theorem maskedMatchIsFieldCheck : Obligations.MaskedMatchIsFieldCheck := by
  intro op h (ho : opcField h = opcodeCode op)
  rw [Ne, and_opcodeMask_eq_opcodeMatch_iff ho, not_not, decodeHeader_eq_error_iff]
  exact ⟨fun | .field _ hf => hf, .field (ho ▸ opcodeCode_legal op)⟩

/-! ### The table of encoded forms (30_encoding R98) -/

/-- Settles O3: closed words, which the decoder evaluates. -/
theorem specEncodingTable : Obligations.SpecEncodingTable := by
  unfold Obligations.SpecEncodingTable
  decide +kernel

end Sys2Proof

namespace Sys2Proof.Machine

/-! ### The pseudo-instructions' words (30_encoding R94 to R97) -/

/-- Settles O58: the expansions and the encoder compute; coordinates are operand words as they stand, and BRIGHTNESS
is one field of INIT_CHAIN's fourth word. -/
theorem pseudoInstructionWords : Obligations.PseudoInstructionWords := by
  intro b x y
  exact ⟨rfl, rfl, rfl, rfl, rfl, rfl, rfl, rfl, rfl⟩

/-! ### The assembler (30_encoding R92, 60_exceptions R192) -/

/-- Every command of a line's answer is well formed for `n` chips. -/
def AnswersWellFormed (n : Nat) (o : Option (List Instr)) : Prop := ∀ is, o = some is → ∀ i ∈ is, i.wellFormed n = true

section
variable {n : Nat} {α : Type}

theorem answersWellFormed_some {is : List Instr} (h : ∀ i ∈ is, i.wellFormed n = true) :
    AnswersWellFormed n (some is) := by
  rintro _ ⟨⟩
  exact h

theorem answersWellFormed_bind {o : Option α} {f : α → Option (List Instr)} (h : ∀ a, AnswersWellFormed n (f a)) :
    AnswersWellFormed n (o.bind f) := by
  cases o with
  | none => nofun
  | some a => exact h a

theorem answersWellFormed_map {o : Option α} {f : α → List Instr} (h : ∀ a, ∀ i ∈ f a, i.wellFormed n = true) :
    AnswersWellFormed n (o.map f) := by
  cases o with
  | none => nofun
  | some a => exact answersWellFormed_some (h a)
end

/-- No pseudo-instruction expands to a WRITE_COLUMN_ALL, so the chain's length does not matter. -/
theorem wellFormed_expandPseudo (n : Nat) (b : BitVec 4) (p : Pseudo) : ∀ i ∈ expandPseudo b p, i.wellFormed n = true := by
  cases p <;> simp [expandPseudo, initCommands, Instr.wellFormed]

@[simp] theorem padValues_length (n : Nat) (vs : List Byte) : (padValues n vs).length = n := by simp [padValues]

/-- Only a WRITE_COLUMN_ALL could be ill formed, and its values are padded to `n`. -/
theorem assembleLine_wellFormed (n : Nat) (b : BitVec 4) (l : AsmLine) : AnswersWellFormed n (assembleLine n b l) := by
  have one {i : Instr} (hi : i.wellFormed n = true) : ∀ j ∈ [i], j.wellFormed n = true := List.forall_mem_singleton.2 hi
  cases l with
  | blank => exact answersWellFormed_some nofun
  | fillAll | render => exact answersWellFormed_some (one rfl)
  | get | set | writeAll => exact answersWellFormed_map fun _ => one rfl
  | fillRegion | writeOne => exact answersWellFormed_bind fun _ => answersWellFormed_map fun _ => one rfl
  | writeColumnAll =>
    refine answersWellFormed_bind fun _ => answersWellFormed_map fun _ => one ?_
    rw [Instr.wellFormed, padValues_length, beq_self_eq_true]
  | clear | clearBuffer | initChain => exact answersWellFormed_some (wellFormed_expandPseudo n b _)
  | pixelOn | pixelOff | pixelToggle => exact answersWellFormed_map fun _ => wellFormed_expandPseudo n b _

theorem fitByte_toNat (v : Byte) : fitByte v.toNat = some v := by
  rw [fitByte, if_pos v.isLt, BitVec.ofNat_toNat, BitVec.setWidth_eq]

theorem fitByte_eq_none {v : Nat} (h : 0xFF < v) : fitByte v = none := by
  rw [fitByte, if_neg (by omega)]

theorem fitBytes_map_toNat (vs : List Byte) : fitBytes (vs.map BitVec.toNat) = some vs := by
  induction vs with
  | nil => rfl
  | cons v vs ih => rw [List.map_cons, fitBytes, fitByte_toNat, ih]; rfl

/-- One value that does not fit rejects the list. -/
theorem fitBytes_eq_none {vs : List Nat} (h : ∃ v ∈ vs, 0xFF < v) : fitBytes vs = none := by
  induction vs with
  | nil => simp at h
  | cons v vs ih =>
    rw [fitBytes]
    rcases (List.exists_mem_cons_iff ..).1 h with big | big
    · rw [fitByte_eq_none big]; rfl
    · rw [ih big]; simp

/-- Padding and truncation in one: the first `n` values, then 0x00 for each missing one. -/
theorem padValues_eq (n : Nat) (vs : List Byte) :
    padValues n vs = vs.take n ++ List.replicate (n - vs.length) 0x00#8 := by
  refine List.ext_getElem (by simp; omega) fun j hj hj' => ?_
  have hjn : j < n := by simpa using hj
  simp only [padValues, List.getElem_map, List.getElem_range, valueAt, List.getD_eq_getElem?_getD, List.getElem_append]
  by_cases inside : j < vs.length <;> simp [hjn, inside]

/-- A WRITE_COLUMN_ALL line whose first `n` values are bytes is accepted, whatever stands behind them. -/
theorem assembleLine_column (n : Nat) (b : BitVec 4) (c : Byte) {vs : List Nat} {ws : List Byte}
    (h : vs.take n = ws.map BitVec.toNat) :
    assembleLine n b (.writeColumnAll c.toNat vs) = some [.writeColumnAll c (padValues n ws)] := by
  simp only [assembleLine, fitByte_toNat, h, fitBytes_map_toNat, Option.bind_some, Option.map_some]

/-- Settles O59: every line by `assembleLine_wellFormed`, the value lists by `assembleLine_column` and `padValues_eq`. -/
theorem assembledCommandsAreWellFormed : Obligations.AssembledCommandsAreWellFormed := by
  refine ⟨assembleLine_wellFormed, fun n b c vs => ?_, fun b c vs more => ?_, fun n b c vs big => ?_⟩
  · rw [assembleLine_column n b c (ws := vs.take n) List.map_take.symm, padValues_eq]
    have missing : n - min n vs.length = n - vs.length := by omega
    rw [List.take_take, Nat.min_self, List.length_take, missing]
  · have first : (vs.map BitVec.toNat ++ more).take vs.length = vs.map BitVec.toNat :=
      List.take_left' (List.length_map _)
    rw [assembleLine_column _ b c first, padValues_eq, List.take_length, Nat.sub_self, List.replicate_zero,
      List.append_nil]
  · rw [assembleLine, fitBytes_eq_none big]
    exact Option.bind_fun_none _

end Sys2Proof.Machine
end

section
/-! PROOFS. The family 40_addressing: the chip index and its inverse, and the decoder between the pixels and the bits of
the storage. -/

namespace Sys2Proof.Machine

/-! ### The chip index (40_addressing R110, R111) -/

/-- Settles O9: the answer is guarded by both comparisons (R110, U1). -/
theorem chipIndexOutsideGridRefused : Obligations.ChipIndexOutsideGridRefused := by
  intro g cc cr outside
  exact if_neg (by omega)

/-- `chip_index` answers inside the grid only, and there by R110's formula. -/
theorem chipIndex_eq_some_iff {g : Grid} {cc cr i : Nat} :
    chipIndex g cc cr = some i ↔ (cc < g.cols ∧ cr < g.rows) ∧ cr + cc * g.rows = i := by
  rw [chipIndex, Option.ite_none_right_eq_some, Option.some.injEq]

/-- R117's inverse gives the column and row back from the index: `cr` is below ROWS, so it is the remainder. -/
theorem chipOfIndex_chipIndex {g : Grid} {cc cr i : Nat} (h : chipIndex g cc cr = some i) :
    chipOfIndex g i = (cc, cr) := by
  obtain ⟨⟨-, hr⟩, rfl⟩ := chipIndex_eq_some_iff.1 h
  rw [chipOfIndex, Nat.add_mul_div_right _ _ (Nat.zero_lt_of_lt hr), Nat.div_eq_of_lt hr, Nat.zero_add,
    Nat.add_mul_mod_self_right, Nat.mod_eq_of_lt hr]

/-- Each index below `N` is the index of the chip that R117's inverse gives. -/
theorem chipIndex_chipOfIndex {g : Grid} {i : Nat} (hi : i < g.cols * g.rows) :
    chipIndex g (chipOfIndex g i).1 (chipOfIndex g i).2 = some i := by
  have hrows : 0 < g.rows := Nat.pos_of_lt_mul_left hi
  have hc : i / g.rows < g.cols := Nat.div_lt_of_lt_mul (by rwa [Nat.mul_comm])
  exact chipIndex_eq_some_iff.2 ⟨⟨hc, Nat.mod_lt i hrows⟩, Nat.mod_add_div' i g.rows⟩

/-- Settles O8: `chip_of_index` is the two-sided inverse, so it is the one chip of each index. -/
theorem chipIndexBijection : Obligations.ChipIndexBijection := by
  refine fun g => ⟨fun cc cr hc hr => ?_, fun i hi => ?_⟩
  · have answer := chipIndex_eq hc hr
    exact ⟨_, answer, rfl, chipIndex_lt hc hr, chipOfIndex_chipIndex answer⟩
  · have answer := chipIndex_chipOfIndex hi
    obtain ⟨⟨hc, hr⟩, -⟩ := chipIndex_eq_some_iff.1 answer
    exact ⟨chipOfIndex g i, ⟨hc, hr, answer⟩, fun _ ⟨_, _, hq⟩ => (chipOfIndex_chipIndex hq).symm⟩

/-! ### The decoder (40_addressing R112 to R117) -/

/-- Settles O10: the model's two decoder lemmas, each side of the range check (R113, R115). -/
theorem decoderAnswersPixelPlace : Obligations.DecoderAnswersPixelPlace := by
  refine fun g x y => ⟨fun outside => decodePixel_none ?_, fun hx hy => decodePixel_eq hx hy⟩
  rintro ⟨hx, hy⟩
  exact outside.elim hx.not_ge hy.not_ge

/-- Settles O11: each storage bit is the image of `pixel_of_bit` of it, and of no other pixel, since `pixel_of_bit`
undoes the decoder. -/
theorem decoderIsBijection : Obligations.DecoderIsBijection := by
  refine fun g => ⟨fun x y x' y' d d' h h' e => ?_, fun a b ha hb => ⟨pixelOfBit g a b, ?_, ?_⟩⟩
  · obtain ⟨sameAddr, sameBit⟩ := Prod.mk.inj e
    exact decodePixel_inj h h' sameAddr sameBit
  · exact ⟨_, decode_pixelOfBit ha hb, Nat.div_add_mod a 8, rfl⟩
  · rintro q ⟨d, hd, rfl, rfl⟩
    exact (pixelOfBit_decode hd).symm

/-- Settles O12: the two formulas are R117's definitions, the inverse law is `pixelOfBit_decode`. -/
theorem decoderInverse : Obligations.DecoderInverse :=
  fun _ => ⟨fun _ _ => rfl, fun _ _ => rfl, fun _ _ _ => pixelOfBit_decode⟩

end Sys2Proof.Machine
end

section
/-! PROOFS. The family 41_register_protocol: what WRITE_ONE, WRITE_ALL and WRITE_COLUMN_ALL send, and which chip
registers the delivered burst changes. -/

namespace Sys2Proof.Machine

/-! ### A command that asks for no burst, and one that asks for one (10_state R30, 60_exceptions R193) -/

section
variable {i : Instr} {s : State} {b : Burst}

theorem transportAccepts_one (h : s.answer 0 = true) : TransportAccepts s 1 := fun j hj => by
  obtain rfl := Nat.lt_one_iff.1 hj
  exact h

theorem exec_of_noBurst (hp : isPixel i = false) (asked : askedBursts s i = []) :
    exec i s = .next (s.advance (i.words s.n)) := by
  rw [exec_eq_emitLoop s hp, asked, State.emitLoop]

/-- The burst is taken: the block is as after the command, and the chain reads as after that burst alone. -/
theorem exec_burst_delivered (hp : isPixel i = false) (asked : askedBursts s i = [b]) (h : s.answer 0 = true) :
    ∃ t, exec i s = .next t ∧ Emitted s i [b] (i.words s.n) t ∧
      ∀ k r, t.chainRead k r = (s.deliver i b).chainRead k r := by
  obtain ⟨delivered, emitted⟩ := emitLoop_emitted s i [b] (i.words s.n) (transportAccepts_one h)
  refine ⟨_, exec_eq_emitLoop s hp, ?_, fun k r => ?_⟩
  · rwa [asked]
  · rw [asked, delivered]
    rfl

/-- The burst is lost: the block faults with that burst, and has sent nothing. -/
theorem exec_burst_lost (hp : isPixel i = false) (asked : askedBursts s i = [b]) (h : s.answer 0 = false) :
    ∃ t, exec i s = .next t ∧ TransportFailed s [] b t := by
  have fails : TransportFailsAt s 0 := ⟨nofun, h⟩
  refine ⟨_, exec_eq_emitLoop s hp, ?_⟩
  rw [asked]
  exact emitLoop_failed s i [b] 0 b _ rfl fails

end

/-! ### WRITE_ONE and WRITE_ALL (41_register_protocol R133 to R136) -/

/-- WRITE_ALL's burst as R135 says it in words: the pair `n` times. -/
theorem writeAllBurst_eq (n : Nat) (reg : Reg) (value : Byte) :
    writeAllBurst n reg value = (List.replicate n [regAddr reg, value]).flatten := flatMap_const n _

/-- Settles O23: no burst outside the chain, and inside it the one burst that only the target chip latches. -/
theorem writeOneReachesOneChip : Obligations.WriteOneReachesOneChip := by
  intro reg value chip s
  refine ⟨rfl, fun outside => exec_of_noBurst rfl (if_neg outside.not_gt), fun inside taken => ?_,
    fun inside lost => exec_burst_lost rfl (if_pos inside) lost⟩
  obtain ⟨t, ht, emitted, latched⟩ := exec_burst_delivered (i := .writeOne reg value chip) rfl (if_pos inside) taken
  refine ⟨t, ht, emitted, fun k r => ?_⟩
  rw [latched, ← writeOneBurst_eq _ _ inside, chainRead_deliver_writeOne s _ inside]

/-- Settles O24: the one burst, which every chip latches. -/
theorem writeAllReachesEveryChip : Obligations.WriteAllReachesEveryChip := by
  intro reg value s
  refine ⟨rfl, fun taken => ?_, fun lost => exec_burst_lost rfl rfl lost⟩
  obtain ⟨t, ht, emitted, latched⟩ := exec_burst_delivered (i := .writeAll reg value) rfl rfl taken
  refine ⟨t, ht, emitted, fun k r => ?_⟩
  rw [latched, ← writeAllBurst_eq, chainRead_deliver_writeAll]

/-! ### WRITE_COLUMN_ALL (41_register_protocol R137 to R139) -/

section
variable {s : State} {column : Byte} {values : List Byte}

/-- One value for each chip: the pairs run from the last chip's value to the first's. -/
theorem columnBurst_reverse (hlen : values.length = s.n) (hc : column.toNat ≤ 7) :
    columnBurst s.n column.toNat (valueAt values) = values.reverse.flatMap (fun v => [column + 1#8, v]) := by
  rw [columnBurst_eq _ _ _ hlen, digitAddr_column hc]

theorem askedBursts_writeColumnAll (hlen : values.length = s.n) (hc : column.toNat ≤ 7) :
    askedBursts s (.writeColumnAll column values) = [values.reverse.flatMap (fun v => [column + 1#8, v])] := by
  rw [← writeColumnList_asked, writeColumnList, if_neg hc.not_gt, columnBurst_reverse hlen hc]

/-- After WRITE_COLUMN_ALL's burst chip `k` holds value `k` in the column register (R138). -/
theorem chainRead_deliver_columnValues (cmd : Instr) (hlen : values.length = s.n) (hc : column.toNat ≤ 7)
    (k : Nat) (r : Reg) :
    (s.deliver cmd (values.reverse.flatMap (fun v => [column + 1#8, v]))).chainRead k r =
      if k < s.n ∧ r = .digit (Fin.ofNat 8 column.toNat) then some (valueAt values k) else s.chainRead k r := by
  rw [← columnBurst_reverse hlen hc, chainRead_deliver_column s cmd (Nat.lt_succ_of_le hc)]

end

/-- Settles O25: no burst for a column above 7, and up to 7 the one burst that gives each chip its own value. -/
theorem writeColumnAllGivesEachChipItsValue : Obligations.WriteColumnAllGivesEachChipItsValue := by
  intro column values s hlen
  refine ⟨rfl, fun above => ?_, fun hc taken => ?_,
    fun hc lost => exec_burst_lost rfl (askedBursts_writeColumnAll hlen hc) lost⟩
  · rw [Nat.add_assoc]
    exact exec_of_noBurst rfl (if_neg above.not_ge)
  · obtain ⟨t, ht, emitted, latched⟩ := exec_burst_delivered rfl (askedBursts_writeColumnAll hlen hc) taken
    refine ⟨t, ht, emitted, fun j hj => ?_, fun k r other => ?_⟩
    · rw [latched, chainRead_deliver_columnValues _ hlen hc, if_pos ⟨hlen ▸ hj, rfl⟩, valueAt,
        List.getD_eq_getElem _ _ hj]
    · rw [latched, chainRead_deliver_columnValues _ hlen hc, if_neg fun h => other h.2]

/-- With all values equal the burst is WRITE_ALL's to the column register (R137, corner cases). -/
theorem askedBursts_equalColumn (k : Fin 8) (v : Byte) (s : State) :
    askedBursts s (.writeColumnAll (BitVec.ofNat 8 k.val) (List.replicate s.n v)) =
      askedBursts s (.writeAll (.digit k) v) := by
  have hc : (BitVec.ofNat 8 k.val).toNat ≤ 7 := by
    revert k
    decide
  have address : BitVec.ofNat 8 k.val + 1#8 = regAddr (.digit k) := by
    revert k
    decide
  rw [askedBursts_writeColumnAll List.length_replicate hc, List.reverse_replicate, address, List.flatMap_def,
    List.map_replicate]
  rfl

/-- Settles O26: both commands ask for the same one burst. -/
theorem equalColumnIsWriteAll : Obligations.EqualColumnIsWriteAll := by
  intro k v s taken
  obtain ⟨t, ht, emittedT, latchedT⟩ := exec_burst_delivered rfl (askedBursts_equalColumn k v s) taken
  obtain ⟨u, hu, emittedU, latchedU⟩ := exec_burst_delivered (i := .writeAll (.digit k) v) rfl rfl taken
  refine ⟨t, u, ht, hu, ?_, fun c r => ?_⟩
  · exact (congrArg State.out emittedT).trans (congrArg State.out emittedU).symm
  · rw [latchedT, latchedU]
    rfl

end Sys2Proof.Machine
end

section
/-! PROOFS. The family 42_frame_buffer: what GET answers, which pixels and which bytes SET and the fills change, and
what no command and no step changes. -/

namespace Sys2Proof.Machine

/-! ### The pixels inside the buffer (42_frame_buffer R150 to R153) -/

theorem inside_grid_iff {s : State} {x y : Nat} :
    (x < gridW s.grid ∧ y < gridH s.grid) ↔ x < 8 * s.cols.toNat ∧ y < 8 * s.rows.toNat := by
  rw [gridW, gridH, State.grid_cols, State.grid_rows, Nat.mul_comm 8, Nat.mul_comm 8]

theorem decodePixel_inside {s : State} {x y : Nat} (hx : x < 8 * s.cols.toNat) (hy : y < 8 * s.rows.toNat) :
    decodePixel s.grid x y = some ⟨y / 8 + x / 8 * s.rows.toNat, x % 8, y % 8⟩ :=
  have ⟨hw, hh⟩ := inside_grid_iff.2 ⟨hx, hy⟩
  decodePixel_eq hw hh

theorem decodePixel_outside {s : State} {x y : Nat} (h : 8 * s.cols.toNat ≤ x ∨ 8 * s.rows.toNat ≤ y) :
    decodePixel s.grid x y = none := by
  refine decodePixel_none fun inside => ?_
  obtain ⟨hx, hy⟩ := inside_grid_iff.1 inside
  exact h.elim hx.not_ge hy.not_ge

/-! ### GET (42_frame_buffer R150) -/

/-- Settles O14: GET answers the pixel, and no pixel as 0 (`execGet_eq`). -/
theorem getRespondsPixel : Obligations.GetRespondsPixel := by
  refine fun x y s => ⟨rfl, fun hx hy => (execGet_eq x y s).trans ?_, fun outside => (execGet_eq x y s).trans ?_⟩
  · rw [State.pixel, decodePixel_inside hx hy]
    rfl
  · rw [State.pixel, decodePixel_outside outside]
    rfl

/-! ### What one pixel write does to the bytes (42_frame_buffer R151) -/

section
variable {g : Grid} {m : List Host.Cell} {p : Nat × Nat} {d : PixelAddr}

theorem fbPixel_of_outside (st : PixelState) (h : decodePixel g p.1 p.2 = none) : fbPixel g st m p = m := by
  rw [fbPixel, h]

/-- Every byte but the pixel's own reads as before. -/
theorem fbRead_fbPixel_other (st : PixelState) {a : Nat}
    (other : ∀ d, decodePixel g p.1 p.2 = some d → a ≠ storeAddr d.chip d.column) :
    fbRead (fbPixel g st m p) a = fbRead m a := by
  cases hd : decodePixel g p.1 p.2 with
  | none => rw [fbPixel_of_outside st hd]
  | some d => rw [fbPixel, hd, fbRead_fbWrite, if_neg (other d hd)]

/-- In the pixel's own byte only the pixel's bit changes. -/
theorem getLsbD_fbRead_fbPixel_own (st : PixelState) (h : decodePixel g p.1 p.2 = some d) (b : Nat) :
    (fbRead (fbPixel g st m p) (storeAddr d.chip d.column)).getLsbD b =
      if b = d.bit then applyState ((fbRead m (storeAddr d.chip d.column)).getLsbD b) st
      else (fbRead m (storeAddr d.chip d.column)).getLsbD b := by
  obtain ⟨-, -, hbit⟩ := decodePixel_chip_lt h
  rw [fbPixel, h, fbRead_fbWrite, if_pos rfl, getLsbD_setBit _ _ _ _ hbit]
  split
  case isTrue own => rw [own]
  case isFalse => rfl

/-- A byte that holds no pixel of a list reads as before when the list is written. -/
theorem fbRead_foldl_other (st : PixelState) {ps : List (Nat × Nat)} {a : Nat}
    (other : ∀ p ∈ ps, ∀ d, decodePixel g p.1 p.2 = some d → a ≠ storeAddr d.chip d.column) :
    fbRead (ps.foldl (fbPixel g st) m) a = fbRead m a := by
  induction ps generalizing m with
  | nil => rfl
  | cons p rest ih =>
    obtain ⟨hp, hrest⟩ := List.forall_mem_cons.1 other
    rw [List.foldl_cons, ih hrest, fbRead_fbPixel_other st hp]

end

/-! ### SET (42_frame_buffer R151, R152) -/

/-- One pixel write applies the state to its own pixel and to no other. -/
theorem fbPixelAt_pixelWrite (g : Grid) (st : PixelState) (m : List Host.Cell) (x y x' y' : Nat) :
    fbPixelAt g (fbPixel g st m (x, y)) x' y' =
      if x' = x ∧ y' = y then (fbPixelAt g m x' y').map (fun b => applyState b st) else fbPixelAt g m x' y' := by
  have own : (x, y) = (x', y') ↔ x' = x ∧ y' = y := by rw [Prod.mk.injEq, eq_comm, eq_comm (a := y)]
  rw [fbPixelAt_fbPixel]
  simp only [own]
  split
  · rfl
  · exact Option.map_id'

/-- Settles O15: SET is one pixel write (`execSet_eq`), of which the pixels and the bytes are known. -/
theorem setWritesOnePixel : Obligations.SetWritesOnePixel := by
  intro st x y s
  exact ⟨rfl, _, execSet_eq st x y s, rfl, fun x' y' => fbPixelAt_pixelWrite s.grid st s.fb _ _ x' y',
    fun a other => fbRead_fbPixel_other st other, fun d hd b => getLsbD_fbRead_fbPixel_own st hd b⟩

/-- Settles O16: a pixel outside the buffer is not written. -/
theorem setNeverClamps : Obligations.SetNeverClamps := by
  intro st x y s outside
  refine (execSet_eq st x y s).trans ?_
  rw [fbPixel_of_outside st (decodePixel_outside outside)]
  rfl

/-! ### FILL_REGION (42_frame_buffer R153) -/

/-- Each pixel of the rectangle has the state applied once; the clipping only leaves out coordinates that are no
pixel's. -/
theorem fbPixelAt_regionPixels (g : Grid) (st : PixelState) (m : List Host.Cell) (x0 y0 w h x y : Nat) :
    fbPixelAt g ((regionPixels g x0 y0 w h).foldl (fbPixel g st) m) x y =
      if x0 ≤ x ∧ x < x0 + w ∧ y0 ≤ y ∧ y < y0 + h then (fbPixelAt g m x y).map (fun b => applyState b st)
      else fbPixelAt g m x y := by
  rw [fbPixelAt_foldl g st _ (regionPixels_nodup g x0 y0 w h)]
  cases hd : decodePixel g x y with
  | none => simp [fbPixelAt, hd]
  | some d =>
    obtain ⟨hx, hy, -⟩ := decodePixel_some hd
    have clipped : (x, y) ∈ regionPixels g x0 y0 w h ↔ x0 ≤ x ∧ x < x0 + w ∧ y0 ≤ y ∧ y < y0 + h := by
      rw [mem_regionPixels]
      omega
    simp only [clipped]
    split
    · rfl
    · exact Option.map_id'

/-- Settles O17: FILL_REGION writes the pixels of the clipped rectangle, each once (`execFillRegion_eq`). -/
theorem fillRegionFillsClippedRectangle : Obligations.FillRegionFillsClippedRectangle := by
  refine fun st x0 y0 w h s => ⟨rfl, _, execFillRegion_eq st x0 y0 w h s, rfl,
    fun x y => fbPixelAt_regionPixels s.grid st s.fb _ _ _ _ x y,
    fun a other => fbRead_foldl_other st fun p hp d hd => ?_⟩
  obtain ⟨⟨hx0, hx, -⟩, hy0, hy, -⟩ := mem_regionPixels.1 hp
  exact other p.1 p.2 d hx0 hx hy0 hy hd

/-! ### FILL_ALL (42_frame_buffer R155) -/

theorem fbRead_fillAll (n : Nat) (st : PixelState) (m : List Host.Cell) (a : Nat) :
    fbRead ((List.range (8 * n)).foldl (fbFill st) m) a =
      if a < 8 * n then fillByte (fbRead m a) st else fbRead m a := by
  rw [fbRead_foldl_fill st _ List.nodup_range]
  simp only [List.mem_range]

/-- Every pixel's byte is inside the storage, so each pixel has the state applied as SET applies it. -/
theorem fbPixelAt_fillAll (g : Grid) (st : PixelState) (m : List Host.Cell) (x y : Nat) :
    fbPixelAt g ((List.range (8 * gridN g)).foldl (fbFill st) m) x y =
      (fbPixelAt g m x y).map (fun b => applyState b st) := by
  rw [fbPixelAt, fbPixelAt, Option.map_map]
  refine Option.map_congr fun d hd => ?_
  obtain ⟨-, -, hbit⟩ := decodePixel_chip_lt hd
  rw [fbRead_fillAll, if_pos (storeAddr_lt hd)]
  exact getLsbD_fillByte _ st _ hbit

/-- Settles O18: FILL_ALL writes each storage byte once (`execFillAll_eq`). -/
theorem fillAllFillsEveryByte : Obligations.FillAllFillsEveryByte := by
  refine fun st s => ⟨rfl, _, execFillAll_eq st s, rfl, fun a => (fbRead_fillAll s.n st s.fb a).trans ?_,
    fun x y => fbPixelAt_fillAll s.grid st s.fb x y⟩
  cases st <;> rfl

/-! ### Equal storage from equal pixels (42_frame_buffer R153, R157) -/

/-- Canonical storages of one grid are equal when their pixels are and nothing differs outside. -/
theorem storage_ext {g : Grid} {m m' : List Host.Cell} (hm : Memory.wf m) (hm' : Memory.wf m')
    (pixels : ∀ x y, fbPixelAt g m x y = fbPixelAt g m' x y)
    (outside : ∀ a, 8 * gridN g ≤ a → fbRead m a = fbRead m' a) : m = m' :=
  wf_ext hm hm' fun a => (Nat.lt_or_ge a (8 * gridN g)).elim (fbRead_eq_of_pixels pixels a) (outside a)

/-- A rectangle that covers the grid holds every pixel, so it leaves the storage that FILL_ALL leaves. -/
theorem foldl_covering_eq_fillAll (g : Grid) (st : PixelState) {m : List Host.Cell} (hm : Memory.wf m) {w h : Nat}
    (hw : gridW g ≤ w) (hh : gridH g ≤ h) :
    (regionPixels g 0 0 w h).foldl (fbPixel g st) m = (List.range (8 * gridN g)).foldl (fbFill st) m := by
  refine storage_ext (g := g) (foldl_fbPixel_wf _ _ _ hm) (foldl_fbFill_wf _ _ hm) (fun x y => ?_) (fun a ha => ?_)
  · rw [fbPixelAt_regionPixels, fbPixelAt_fillAll]
    cases hd : decodePixel g x y with
    | none => simp [fbPixelAt, hd]
    | some d =>
      obtain ⟨hx, hy, -⟩ := decodePixel_some hd
      exact if_pos (by omega)
  · rw [fbRead_foldl_outside g st _ m a ha, fbRead_fillAll, if_neg ha.not_gt]

/-- Settles O19: `W` is `8 * COLS` and `H` is `8 * ROWS`, so the rectangle covers the grid. -/
theorem coveringRegionIsFillAll : Obligations.CoveringRegionIsFillAll := by
  intro st w h s hwf hw hh
  have hw' : gridW s.grid ≤ w.toNat := (Nat.mul_comm _ _).trans_le hw
  have hh' : gridH s.grid ≤ h.toNat := (Nat.mul_comm _ _).trans_le hh
  exact ⟨_, _, execFillRegion_eq st 0#32 0#32 w h s, execFillAll_eq st s,
    foldl_covering_eq_fillAll s.grid st hwf hw' hh'⟩

/-- Inverting the pixels of a list twice restores canonical storage. -/
theorem foldl_invert_twice (g : Grid) {ps : List (Nat × Nat)} (hn : ps.Nodup) {m : List Host.Cell}
    (hm : Memory.wf m) : ps.foldl (fbPixel g .invert) (ps.foldl (fbPixel g .invert) m) = m := by
  refine storage_ext (g := g) (foldl_fbPixel_wf _ _ _ (foldl_fbPixel_wf _ _ _ hm)) hm (fun x y => ?_) (fun a ha => ?_)
  · rw [fbPixelAt_foldl g _ ps hn, fbPixelAt_foldl g _ ps hn, Option.map_map]
    by_cases h : (x, y) ∈ ps <;> simp [h, applyState, Function.comp_def]
  · rw [fbRead_foldl_outside g _ ps _ a ha, fbRead_foldl_outside g _ ps _ a ha]

/-- Settles O20: both commands invert the pixels of a list without repetition, SET those of a list of one. -/
theorem invertTwiceRestores : Obligations.InvertTwiceRestores := by
  refine fun s hwf => ⟨fun x y => ?_, fun x0 y0 w h => ?_⟩
  · exact ⟨_, _, execSet_eq .invert x y s, execSet_eq .invert x y _,
      foldl_invert_twice s.grid (List.nodup_singleton (x.toNat, y.toNat)) hwf⟩
  · exact ⟨_, _, execFillRegion_eq .invert x0 y0 w h s, execFillRegion_eq .invert x0 y0 w h _,
      foldl_invert_twice s.grid (regionPixels_nodup ..) hwf⟩

/-! ### What no pixel command, no command and no step changes (42_frame_buffer R156, R158) -/

/-- Settles O22: a pixel command changes storage, RESP and `cpos` only (`exec_pixel`). -/
theorem pixelCommandsNeverFault : Obligations.PixelCommandsNeverFault := by
  intro i s hp
  obtain ⟨t, ht, e, hresp, hfb, -⟩ := exec_pixel i s hp
  have hcpos : t.cpos = s.cpos + (encode i).length := congrArg State.cpos e
  rw [← hcpos] at e
  refine ⟨t, ht, e, fun k r => ?_, hresp, fun hw => (hfb hw).1⟩
  rw [e]
  rfl

/-- Settles O48: neither a pixel command nor a list of emissions writes the configuration. -/
theorem commandsKeepConfiguration : Obligations.CommandsKeepConfiguration := by
  intro i s
  cases hp : isPixel i with
  | true =>
    obtain ⟨t, ht, e, -⟩ := exec_pixel i s hp
    refine ⟨t, ht, ?_⟩
    rw [e]
    exact ⟨rfl, rfl, rfl, rfl⟩
  | false =>
    refine ⟨_, exec_eq_emitLoop s hp, ?_⟩
    rw [emitLoop_changes rfl]
    exact ⟨rfl, rfl, rfl, rfl⟩

theorem commandStep_cfgArg {s t : State} (h : commandStep s = .next t) : t.cfgArg = s.cfgArg := by
  obtain ⟨-, ⟨i, -, he⟩ | ⟨-, rfl⟩ | ⟨r, -, rfl⟩⟩ := commandStep_cases h
  · obtain ⟨u, hu, -, -, -, hcfg⟩ := commandsKeepConfiguration i s
    obtain rfl : u = t := Host.Outcome.next.inj (hu.symm.trans he)
    exact hcfg
  · rfl
  · rfl

/-- No step writes the configuration argument: it is the run's (10_state R44, log 15). -/
theorem step_cfgArg {s t : State} (h : step s = .next t) : t.cfgArg = s.cfgArg := by
  obtain ⟨-, hc⟩ | ⟨rest, -, hc⟩ | ⟨ws, rest, -, rfl⟩ | ⟨ws, rest, -, rfl⟩ := step_cases h
  · exact commandStep_cfgArg hc
  · exact commandStep_cfgArg (s := { s with host := rest }) hc
  · rfl
  · rfl

/-- Settles O57: before and after the step the registers hold what a reset loads from the same argument. -/
theorem gridNeverChanges : Obligations.GridNeverChanges := by
  intro s t hs ht
  obtain ⟨hcols, hrows, hbrightness⟩ := hs.config
  have after := (stepKeepsInvariant s t hs ht).config
  rwa [step_cfgArg ht, ← hcols, ← hrows, ← hbrightness] at after

end Sys2Proof.Machine
end

section
/-! PROOFS. The family 43_renderer: the bursts RENDER sends, what the chain and the display hold after them, RENDER sent
twice, and CLEAR. -/

namespace Sys2Proof.Machine

/-! ### The bursts asked for (43_renderer R170, R171) -/

theorem askedBursts_render_length (s : State) : (askedBursts s .render).length = 8 := by
  rw [askedBursts, List.length_map, List.length_range]

/-- RENDER's burst for column register `k` is the one burst WRITE_COLUMN_ALL sends for the storage bytes of that
column. -/
theorem askedBursts_writeColumn_storage (s : State) {k : Nat} (hk : k < 8)
    (hlen : k < (askedBursts s .render).length) :
    askedBursts s (.writeColumnAll (BitVec.ofNat 8 k) ((List.range s.n).map fun ci => fbRead s.fb (8 * ci + k))) =
      [(askedBursts s .render)[k]] := by
  have hcode : (BitVec.ofNat 8 k).toNat = k := Nat.mod_eq_of_lt (by omega)
  rw [← writeColumnList_asked, writeColumnList, hcode, if_neg (by omega), List.singleton_inj]
  simp only [askedBursts, List.getElem_map, List.getElem_range]
  refine List.flatMap_congr fun p hp => ?_
  have hchip : s.n - 1 - p < s.n := by
    have := List.mem_range.1 hp
    omega
  simp [pair, digitAddr, valueAt, hchip]

/-! ### A delivered RENDER (43_renderer R172, R174) -/

section
variable {s t : State} (taken : TransportAccepts s 8) (ht : exec .render s = .next t)
include taken ht

theorem render_emitted : Emitted s .render (askedBursts s .render) 1 t := by
  obtain rfl := Host.Outcome.next.inj ((execRender_eq s).symm.trans ht)
  rw [← renderList_asked]
  exact (emitLoop_emitted s .render (renderList s) 1 taken).2

theorem render_fb : t.fb = s.fb := by rw [render_emitted taken ht]

theorem render_grid : t.grid = s.grid := by rw [render_emitted taken ht]; rfl

theorem render_out : t.out = s.out ++ askedBursts s .render := by rw [render_emitted taken ht]

/-- Column register `k` of chip `ci` holds storage byte `8 * ci + k`. -/
theorem chainRead_render_digit (ci : Nat) (k : Fin 8) (hci : ci < s.n) :
    t.chainRead ci (.digit k) = some (fbRead t.fb (8 * ci + k.val)) := by
  rw [render_fb taken ht]
  obtain rfl := Host.Outcome.next.inj ((execRender_eq s).symm.trans ht)
  exact (chainRead_render s taken ci (.digit k)).trans (if_pos hci)

/-- Every register that is not a column register is as before. -/
theorem chainRead_render_other (k : Nat) (r : Reg) (other : ∀ d : Fin 8, r ≠ .digit d) :
    t.chainRead k r = s.chainRead k r := by
  obtain rfl := Host.Outcome.next.inj ((execRender_eq s).symm.trans ht)
  rw [chainRead_render s taken]
  cases r with
  | digit d => exact absurd rfl (other d)
  | noop | decodeMode | intensity | scanLimit | shutdown | displayTest => rfl

theorem render_booted : t.booted = s.initialized := by
  obtain rfl := Host.Outcome.next.inj ((execRender_eq s).symm.trans ht)
  exact booted_render s taken

theorem render_pixel (x y : Nat) : t.pixel x y = s.pixel x y := by
  rw [State.pixel_eq, State.pixel_eq, render_grid taken ht, render_fb taken ht]

end

/-- On booted chips whose column registers hold the storage bytes the display view is the frame buffer (10_state R43). -/
theorem displayLit_eq_pixel {t : State} (hb : t.booted = true)
    (columns : ∀ ci (k : Fin 8), ci < t.n → t.chainRead ci (.digit k) = some (fbRead t.fb (8 * ci + k.val)))
    (x y : Nat) : t.displayLit x y = t.pixel x y := by
  cases hd : decodePixel t.grid x y with
  | none => rw [State.displayLit, State.pixel, hd]; rfl
  | some d =>
    obtain ⟨hchip, hcol, -⟩ := decodePixel_chip_lt hd
    have hk : (Fin.ofNat 8 d.column).val = d.column := Nat.mod_eq_of_lt hcol
    rw [displayLit_booted hb hd, columns _ _ hchip, hk, State.pixel, hd]
    rfl

/-- Settles O28: burst `k` is WRITE_COLUMN_ALL's of column `k`, and RENDER is the emission of all 8. -/
theorem renderSerializesFrameBuffer : Obligations.RenderSerializesFrameBuffer := by
  refine fun s => ⟨rfl, fun k hk => ?_, fun taken => ⟨_, execRender_eq s, render_emitted taken (execRender_eq s)⟩,
    fun k hk fails => ⟨_, execRender_eq s, ?_⟩⟩
  all_goals have hlen : k < (askedBursts s .render).length := by rwa [askedBursts_render_length]
  · rw [askedBursts_writeColumn_storage s hk hlen, List.take_append_getElem hlen, List.take_append_drop]
  · have hburst := List.getElem?_eq_getElem hlen
    rw [renderList_asked, hburst]
    exact emitLoop_failed s .render _ k _ 1 hburst fails

/-- Settles O29: the column registers hold the storage bytes, and that is what the display view of booted chips shows. -/
theorem renderShowsFrameBuffer : Obligations.RenderShowsFrameBuffer := by
  intro s taken
  obtain ⟨t, ht⟩ : ∃ t, exec .render s = .next t := ⟨_, execRender_eq s⟩
  have columns := chainRead_render_digit taken ht
  have hn : t.n = s.n := congrArg gridN (render_grid taken ht)
  refine ⟨t, ht, columns, fun hinit => ?_, render_pixel taken ht⟩
  have hb : t.booted = true := (render_booted taken ht).trans hinit
  exact ⟨hb, displayLit_eq_pixel hb (hn ▸ columns)⟩

/-- Settles O32: the 8 bursts write column registers only. -/
theorem renderKeepsChipConfiguration : Obligations.RenderKeepsChipConfiguration :=
  fun s taken => ⟨_, execRender_eq s, chainRead_render_other taken (execRender_eq s)⟩

/-! ### Runs of commands -/

/-- A run that goes to its end is one command that leaves the block running, and then the run of the rest. -/
theorem runCommands_cons_eq_next {i : Instr} {is : List Instr} {s t : State} :
    runCommands (i :: is) s = .next t ↔ ∃ u, exec i s = .next u ∧ Running u ∧ runCommands is u = .next t := by
  unfold Running
  rw [runCommands]
  cases exec i s with
  | fault f | refused r => simp
  | next u => cases hu : u.status <;> simp [hu]

/-- What each command of a run keeps, the run keeps. -/
theorem runCommands_keeps {P : State → Prop} {is : List Instr}
    (keeps : ∀ i ∈ is, ∀ s t, exec i s = .next t → P s → P t) {s t : State} (hrun : runCommands is s = .next t)
    (hs : P s) : P t := by
  induction is generalizing s with
  | nil => cases hrun; exact hs
  | cons i rest ih =>
    obtain ⟨u, hu, -, hrest⟩ := runCommands_cons_eq_next.1 hrun
    obtain ⟨keepsHead, keepsRest⟩ := List.forall_mem_cons.1 keeps
    exact ih keepsRest hrest (keepsHead s u hu hs)

/-! ### RENDER sent twice (43_renderer R173) -/

/-- A command that does not write the frame buffer leaves storage as it is. -/
theorem exec_fb {i : Instr} {s t : State} (hw : writesBuffer i = false) (ht : exec i s = .next t) : t.fb = s.fb := by
  obtain ⟨u, hu, -, pixel, emits, -⟩ := commandFrames i s
  obtain rfl := Host.Outcome.next.inj (hu.symm.trans ht)
  cases hp : isPixel i with
  | true => rw [pixel hp hw]
  | false => rw [emits hp]

theorem exec_n {i : Instr} {s t : State} (ht : exec i s = .next t) : t.n = s.n := by
  obtain ⟨u, hu, hcols, hrows, -⟩ := commandsKeepConfiguration i s
  obtain rfl := Host.Outcome.next.inj (hu.symm.trans ht)
  rw [State.n_eq, State.n_eq, hcols, hrows]

theorem exec_pixel_chainRead {i : Instr} {s t : State} (hp : isPixel i = true) (ht : exec i s = .next t) (k : Nat)
    (r : Reg) : t.chainRead k r = s.chainRead k r := by
  obtain ⟨u, hu, -, chain, -⟩ := pixelCommandsNeverFault i s hp
  obtain rfl := Host.Outcome.next.inj (hu.symm.trans ht)
  exact chain k r

theorem chainRead_outside {s : State} {k : Nat} (hk : s.n ≤ k) (r : Reg) : s.chainRead k r = none :=
  if_neg fun h => hk.not_gt h.1

/-- Commands that do not write the frame buffer leave storage and `N` as they are. -/
theorem runCommands_storage {is : List Instr} (reads : ∀ i ∈ is, writesBuffer i = false) {s t : State}
    (hrun : runCommands is s = .next t) : t.fb = s.fb ∧ t.n = s.n :=
  runCommands_keeps (P := fun w => w.fb = s.fb ∧ w.n = s.n)
    (fun i hi _ _ ht ⟨hfb, hn⟩ => ⟨(exec_fb (reads i hi) ht).trans hfb, (exec_n ht).trans hn⟩) hrun ⟨rfl, rfl⟩

/-- Pixel commands leave the chain view as it is. -/
theorem runCommands_pixel_chainRead {is : List Instr} (pixel : ∀ i ∈ is, isPixel i = true) {s t : State}
    (hrun : runCommands is s = .next t) (k : Nat) (r : Reg) : t.chainRead k r = s.chainRead k r :=
  runCommands_keeps (P := fun w => w.chainRead k r = s.chainRead k r)
    (fun i hi _ _ ht kept => (exec_pixel_chainRead (pixel i hi) ht k r).trans kept) hrun rfl

/-- Settles O31: RENDER's bursts and the column registers it leaves are a function of `N` and storage, which the commands
between keep. -/
theorem renderIsIdempotent : Obligations.RenderIsIdempotent := by
  intro s t u v js reads takenS ht hrun takenU hv
  obtain ⟨hfb, hn⟩ := runCommands_storage reads hrun
  have hfbS : u.fb = s.fb := hfb.trans (render_fb takenS ht)
  have hnS : u.n = s.n := hn.trans (exec_n ht)
  have columns : ∀ k (d : Fin 8), v.chainRead k (.digit d) = t.chainRead k (.digit d) := by
    intro k d
    obtain hk | hk := Nat.lt_or_ge k s.n
    · rw [chainRead_render_digit takenU hv k d (hnS ▸ hk), chainRead_render_digit takenS ht k d hk,
        render_fb takenU hv, hfb]
    · rw [chainRead_outside (by rwa [exec_n hv, hnS]), chainRead_outside (by rwa [exec_n ht])]
  refine ⟨⟨askedBursts s .render, askedBursts_render_length s, render_out takenS ht, ?_⟩, columns, fun gets k r => ?_⟩
  · rw [render_out takenU hv, askedBursts_congr hnS hfbS]
  · by_cases hr : ∃ d : Fin 8, r = .digit d
    · obtain ⟨d, rfl⟩ := hr
      exact columns k d
    · rw [chainRead_render_other takenU hv k r fun d hd => hr ⟨d, hd⟩, runCommands_pixel_chainRead gets hrun]

/-! ### CLEAR (43_renderer R175) -/

/-- With every storage byte 0x00, RENDER asks for bursts of `N` pairs `[DIGIT(k), 0x00]`. -/
theorem askedBursts_render_blank {s : State} (blank : ∀ a, a < 8 * s.n → fbRead s.fb a = 0x00#8) :
    askedBursts s .render =
      (List.range 8).map fun k => (List.replicate s.n [BitVec.ofNat 8 (k + 1), 0x00#8]).flatten := by
  refine List.map_congr_left fun k hk => ?_
  rw [← flatMap_const]
  refine List.flatMap_congr fun p hp => ?_
  have hk := List.mem_range.1 hk
  have hp := List.mem_range.1 hp
  rw [blank _ (by omega)]

/-- The state after FILL_ALL OFF. -/
def State.blanked (s : State) : State := (s.withFb ((List.range (8 * s.n)).foldl (fbFill .off) s.fb)).advance 1

theorem exec_fillAll_off (s : State) : exec (.fillAll .off) s = .next s.blanked := execFillAll_eq .off s

theorem fbRead_blanked (s : State) {a : Nat} (ha : a < 8 * s.n) : fbRead s.blanked.fb a = 0x00#8 :=
  (fbRead_fillAll s.n .off s.fb a).trans (if_pos ha)

/-- Settles O33: FILL_ALL OFF leaves every storage byte 0x00 and the block running, and RENDER sends those bytes. -/
theorem clearBlanksBufferAndChain : Obligations.ClearBlanksBufferAndChain := by
  intro s taken running
  obtain ⟨t, ht⟩ : ∃ t, exec .render s.blanked = .next t := ⟨_, execRender_eq _⟩
  have takenBlanked : TransportAccepts s.blanked 8 := taken
  have emitted := render_emitted takenBlanked ht
  rw [askedBursts_render_blank fun _ => fbRead_blanked s] at emitted
  have hfb : t.fb = s.blanked.fb := render_fb takenBlanked ht
  have hrun : Running t := by rw [emitted]; exact running
  refine ⟨rfl, t, runCommands_cons_eq_next.2
      ⟨_, exec_fillAll_off s, running, runCommands_cons_eq_next.2 ⟨t, ht, hrun, rfl⟩⟩, ?_,
    fun a ha => hfb ▸ fbRead_blanked s ha, fun k d hk => ?_, chainRead_render_other (s := s.blanked) taken ht⟩
  · rw [hfb]
    exact emitted
  · rw [chainRead_render_digit takenBlanked ht k d hk, hfb, fbRead_blanked s (by omega)]

/-! ### The source's end-to-end test (43_renderer R176) -/

/-- The test's two chips after SET 0, 0, ON, with 8 draws fixed to true. -/
def cornerLit : State :=
  { State.start ⟨2, 1, 0⟩ [] [] (List.replicate 8 true) with fb := [(0, 0x01#8)], cpos := 3 }

theorem exec_set_corner :
    exec (.set .on 0#32 0#32) (State.start ⟨2, 1, 0⟩ [] [] (List.replicate 8 true)) = .next cornerLit :=
  rfl

theorem cornerLit_accepts : TransportAccepts cornerLit 8 := by
  unfold TransportAccepts
  decide

/-- Settles O34: the bursts RENDER asks for in the state that SET leaves. -/
theorem endToEndTwoChips : Obligations.EndToEndTwoChips := by
  refine ⟨cornerLit, _, exec_set_corner, execRender_eq cornerLit,
    (render_out cornerLit_accepts (execRender_eq cornerLit)).trans ?_⟩
  decide

end Sys2Proof.Machine
end

section
/-! PROOFS. The family 60_exceptions: what a transport failure and a refusal leave, that nothing else halts the block, that
a halted block takes no step, and the host's turn before the block's. -/

namespace Sys2Proof.Machine

/-! ### Transport failures (60_exceptions R193, R194, R197) -/

/-- A pixel command never speaks to the transport. -/
theorem askedBursts_pixel {i : Instr} (hp : isPixel i = true) (s : State) : askedBursts s i = [] := by
  cases i with
  | get | set | fillRegion | fillAll => rfl
  | render | writeOne | writeAll | writeColumnAll => cases hp

/-- After a transport failure the chain's list is empty and its epoch the next one, so each register reads as its draw. -/
theorem TransportFailed.chainRead {s t : State} {sent : List Burst} {b : Burst} (h : TransportFailed s sent b t)
    (c : Nat) (r : Reg) :
    t.chainRead c r = if c < s.n ∧ r ≠ .noop then some (Config.chainAfterFault s.chainEpoch c r) else none := by
  obtain rfl := h
  rfl

/-- Settles O37: a command that asks for a burst is the emission of its bursts, which ends at the first failing draw. -/
theorem transportFailureFaults : Obligations.TransportFailureFaults := by
  intro i s k b hburst fails
  cases hp : isPixel i with
  | true =>
    rw [askedBursts_pixel hp] at hburst
    cases hburst
  | false =>
    have failed := emitLoop_failed s i (askedBursts s i) k b (i.words s.n) hburst fails
    exact ⟨_, exec_eq_emitLoop s hp, failed, failed.chainRead⟩

theorem emitLoop_refused (s : State) (i : Instr) (bs : List Burst) (len : Nat) :
    (s.emitLoop i bs len).refused = s.refused := by
  rw [emitLoop_changes rfl]

/-- Emissions leave FAULT as it was, unless one of their own draws is false. -/
theorem emitLoop_fault (s : State) (i : Instr) (bs : List Burst) (len : Nat) :
    (s.emitLoop i bs len).fault = s.fault ∨ ∃ k, k < bs.length ∧ s.answer k = false := by
  by_cases lost : ∃ k, k < bs.length ∧ s.answer k = false
  · exact .inr lost
  · have taken : TransportAccepts s bs.length := fun j hj =>
      Bool.eq_true_of_not_eq_false fun hfalse => lost ⟨j, hj, hfalse⟩
    obtain ⟨-, emitted⟩ := emitLoop_emitted s i bs len taken
    left
    rw [emitted]

/-- Settles O38: a pixel command writes neither flag, and emissions write FAULT only, on a false draw. -/
theorem onlyTransportFaults : Obligations.OnlyTransportFaults := by
  intro i s _
  cases hp : isPixel i with
  | true =>
    obtain ⟨t, ht, e, -⟩ := exec_pixel i s hp
    refine ⟨t, ht, ?_⟩
    rw [e]
    exact ⟨rfl, .inl rfl⟩
  | false =>
    exact ⟨_, exec_eq_emitLoop s hp, emitLoop_refused s i _ _, emitLoop_fault s i _ _⟩

/-! ### Refusals (60_exceptions R191) -/

/-- No words wait, so a refusal has a header word to record. -/
theorem header_of_fetch_refuse {s : State} {r : RefuseReason} (hf : s.fetch = .refuse r) :
    ∃ h, s.cmd[s.cpos]? = some h := by
  cases hc : s.cmd.drop s.cpos with
  | nil =>
    rw [State.fetch, State.pending, hc] at hf
    cases hf
  | cons h rest =>
    have hget : (s.cmd.drop s.cpos)[0]? = some h := by rw [hc]; rfl
    exact ⟨h, by rwa [List.getElem?_drop] at hget⟩

theorem State.refuse_of_header {s : State} {h : Word} (hget : s.cmd[s.cpos]? = some h) (r : RefuseReason) :
    s.refuse r = { s with refused := true, haltInfo := some ⟨reasonCode r, s.cpos, .header h⟩ } := by
  rw [State.refuse, hget]
  rfl

/-- A step of a running block at words that decode to a refusal is that refusal. -/
theorem commandStep_of_refuse {s : State} {r : RefuseReason} (hr : Running s) (hf : s.fetch = .refuse r) :
    commandStep s = .next (s.refuse r) := by
  unfold commandStep
  rw [hr]
  simp only [hf]

/-- Settles O39: the refusal by the decoder has its header word, and power-up records the illegal configuration. -/
theorem refusalIsPrecise : Obligations.RefusalIsPrecise := by
  refine ⟨fun s r hh hr hd => ?_, fun arg illegal => ?_⟩
  · obtain ⟨h, hget⟩ := header_of_fetch_refuse hd
    refine ⟨h, hget, ?_⟩
    rw [step_of_no_host hh, commandStep_of_refuse hr hd, State.refuse_of_header hget]
    cases r <;> rfl
  · simp [State.powerUp, illegal, reasonCode]

/-! ### Halted blocks (60_exceptions R198) -/

theorem commandStep_of_refused {s : State} (h : s.refused = true) : commandStep s = .refused .haltedRefused := by
  have halted : s.status = .haltedRefused := if_pos h
  rw [commandStep, halted]

theorem commandStep_of_fault {s : State} (hrefused : s.refused = false) (hfault : s.fault = true) :
    commandStep s = .fault .haltedFault := by
  have halted : s.status = .haltedFault := by simp [State.status, hrefused, hfault]
  rw [commandStep, halted]

/-- Settles O40: with no action of the host pending the step is the block's own, which the flags stop. -/
theorem haltedBlockTakesNoStep : Obligations.HaltedBlockTakesNoStep := by
  intro s hh
  rw [step_of_no_host hh]
  exact ⟨commandStep_of_refused, commandStep_of_fault⟩

/-! ### The host's turn (60_exceptions R202) -/

/-- Settles O44: a pending action is the step, and without one the step is the block's own. -/
theorem hostActsBetweenSteps : Obligations.HostActsBetweenSteps :=
  fun s rest => ⟨fun ws => step_of_host (s := { s with host := .present ws :: rest }) rfl,
    step_of_host (s := { s with host := .grant :: rest }) rfl, step_of_no_host⟩

end Sys2Proof.Machine
end

section
/-! PROOFS. The family 70_reset_and_hazards: the boot of the chain, the display before and after it, the WRITE commands
beside the frame buffer, what a reset loads and refuses, and the invariant where a run starts. -/

namespace Sys2Proof.Machine

/-! ### The boot of the chain (70_reset_and_hazards R223, 30_encoding R97) -/

/-- The state after a delivered WRITE_ALL. -/
def State.sentToAll (s : State) (p : Reg × Byte) : State :=
  ((s.afterDraws 1).deliver (.writeAll p.1 p.2) (writeAllBurst s.n p.1 p.2)).advance 1

section
variable (s : State) (p : Reg × Byte)

@[simp] theorem State.sentToAll_fb : (s.sentToAll p).fb = s.fb := rfl
@[simp] theorem State.sentToAll_grid : (s.sentToAll p).grid = s.grid := rfl
@[simp] theorem State.sentToAll_n : (s.sentToAll p).n = s.n := rfl
@[simp] theorem State.sentToAll_brightness : (s.sentToAll p).brightness = s.brightness := rfl
@[simp] theorem State.sentToAll_delivered : (s.sentToAll p).delivered =
    s.delivered ++ [⟨.writeAll p.1 p.2, writeAllBurst s.n p.1 p.2⟩] := rfl

theorem chainRead_sentToAll (k : Nat) (r : Reg) :
    (s.sentToAll p).chainRead k r = if k < s.n ∧ r = p.1 ∧ r ≠ .noop then some p.2 else s.chainRead k r :=
  chainRead_deliver_writeAll (s.afterDraws 1) (.writeAll p.1 p.2) p.1 p.2 k r

end

/-- The block takes commands, and its next `k` draws are true. -/
def Ready (s : State) (k : Nat) : Prop := Running s ∧ TransportAccepts s k

/-- WRITE_ALL takes the first draw, and the later ones remain. -/
theorem Ready.sentToAll {s : State} {k : Nat} (h : Ready s (k + 1)) (p : Reg × Byte) : Ready (s.sentToAll p) k := by
  obtain ⟨running, taken⟩ := h
  exact ⟨running, fun j hj => (answer_afterDraws s 1 j).trans (taken (1 + j) (by omega))⟩

theorem exec_writeAll_ready {s : State} {k : Nat} (h : Ready s (k + 1)) (p : Reg × Byte) :
    exec (.writeAll p.1 p.2) s = .next (s.sentToAll p) := by
  obtain ⟨-, taken⟩ := h
  exact (execWriteAll_eq p.1 p.2 s).trans
    (congrArg Host.Outcome.next (emitLoop_singleton (taken 0 (Nat.succ_pos k)) ..))

/-- The state after a delivered WRITE_ALL of each pair. -/
def State.sentEachToAll (s : State) (ps : List (Reg × Byte)) : State := ps.foldl State.sentToAll s

@[simp] theorem sentEachToAll_cons (s : State) (p : Reg × Byte) (ps : List (Reg × Byte)) :
    s.sentEachToAll (p :: ps) = (s.sentToAll p).sentEachToAll ps := rfl

/-- Delivered WRITE_ALL commands touch neither storage nor grid nor BRIGHTNESS. -/
theorem sentEachToAll_keeps (s : State) (ps : List (Reg × Byte)) :
    (s.sentEachToAll ps).fb = s.fb ∧ (s.sentEachToAll ps).grid = s.grid ∧
      (s.sentEachToAll ps).brightness = s.brightness := by
  induction ps generalizing s with
  | nil => exact ⟨rfl, rfl, rfl⟩
  | cons p rest ih => simpa using ih (s.sentToAll p)

/-- Each of the commands is one delivery. -/
theorem sentEachToAll_delivered (s : State) (ps : List (Reg × Byte)) :
    (s.sentEachToAll ps).delivered =
      s.delivered ++ ps.map (fun p => ⟨.writeAll p.1 p.2, writeAllBurst s.n p.1 p.2⟩) := by
  induction ps generalizing s with
  | nil => exact (List.append_nil _).symm
  | cons p rest ih => simpa using ih (s.sentToAll p)

/-- Delivered WRITE_ALL commands at the head of a run leave the block ready for the rest of it. -/
theorem runCommands_writeAlls {s : State} {ps : List (Reg × Byte)} {k : Nat} (h : Ready s (k + ps.length)) :
    Ready (s.sentEachToAll ps) k ∧ ∀ {rest t}, runCommands rest (s.sentEachToAll ps) = .next t →
      runCommands (ps.map (fun p => .writeAll p.1 p.2) ++ rest) s = .next t := by
  induction ps generalizing s with
  | nil => exact ⟨h, id⟩
  | cons p ps ih =>
    obtain ⟨running, taken⟩ : Ready (s.sentToAll p) (k + ps.length) := h.sentToAll p
    obtain ⟨ready, run⟩ := ih ⟨running, taken⟩
    exact ⟨ready, fun hrest => runCommands_cons_eq_next.2 ⟨_, exec_writeAll_ready h p, running, run hrest⟩⟩

/-- The registers INIT_CHAIN writes, with their values. -/
def initPairs (brightness : BitVec 4) : List (Reg × Byte) :=
  [(.scanLimit, 0x07#8), (.decodeMode, 0x00#8), (.displayTest, 0x00#8), (.intensity, brightness.zeroExtend 8),
    (.shutdown, 0x01#8)]

theorem expandPseudo_initChain (brightness : BitVec 4) :
    expandPseudo brightness .initChain = (initPairs brightness).map fun p => .writeAll p.1 p.2 := rfl

/-- INIT_CHAIN's five bursts stand in a row at the end of the deliveries (log 20). -/
theorem initialized_initPairs (s : State) : (s.sentEachToAll (initPairs s.brightness)).initialized = true := by
  obtain ⟨-, -, hbrightness⟩ := sentEachToAll_keeps s (initPairs s.brightness)
  rw [State.initialized, hbrightness, sentEachToAll_delivered]
  exact sentInARow_suffix _ rfl

/-- The boot values, of registers that are all different, so no command writes over another's (D18). -/
theorem chainRead_initPairs (s : State) {k : Nat} (hk : k < s.n) {p : Reg × Byte} (hp : p ∈ initPairs s.brightness) :
    (s.sentEachToAll (initPairs s.brightness)).chainRead k p.1 = some p.2 := by
  revert p
  simp [State.sentEachToAll, initPairs, chainRead_sentToAll, hk]

/-- INIT_CHAIN with true draws leaves the block ready for the commands after it, the frame buffer as it was, and every
chip initialized and with the boot values. -/
theorem exists_runCommands_initChain {s : State} {k : Nat} (h : Ready s (k + 5)) :
    ∃ u, Ready u k ∧
      (∀ {rest t}, runCommands rest u = .next t →
        runCommands (expandPseudo s.brightness .initChain ++ rest) s = .next t) ∧
      u.fb = s.fb ∧ u.grid = s.grid ∧ u.initialized = true ∧
      ∀ c < s.n, ∀ p ∈ initPairs s.brightness, u.chainRead c p.1 = some p.2 := by
  obtain ⟨ready, run⟩ := runCommands_writeAlls (ps := initPairs s.brightness) h
  obtain ⟨hfb, hgrid, -⟩ := sentEachToAll_keeps s (initPairs s.brightness)
  rw [expandPseudo_initChain]
  exact ⟨_, ready, run, hfb, hgrid, initialized_initPairs s, fun _ hc _ => chainRead_initPairs s hc⟩

/-- Settles O35: INIT_CHAIN leaves the boot values and the frame buffer as it was, and the RENDER after it keeps those
values, sends the storage bytes and so makes the display view the frame buffer. -/
theorem bootMakesDisplayDefined : Obligations.BootMakesDisplayDefined := by
  intro s taken running
  obtain ⟨u, ⟨runningU, takenU⟩, run, hfb, hgrid, initialized, boot⟩ :=
    exists_runCommands_initChain (s := s) (k := 8) ⟨running, taken⟩
  obtain ⟨t, ht, columns, shown, hpixel⟩ := renderShowsFrameBuffer u takenU
  have hn : u.n = s.n := congrArg gridN hgrid
  have runningT : Running t := by rw [render_emitted takenU ht]; exact runningU
  have kept {c : Nat} (hc : c < s.n) {r : Reg} {v : Byte} (hp : (r, v) ∈ initPairs s.brightness)
      (config : ∀ d : Fin 8, r ≠ .digit d) : t.chainRead c r = some v :=
    (chainRead_render_other takenU ht c r config).trans (boot c hc _ hp)
  refine ⟨t, run (runCommands_cons_eq_next.2 ⟨t, ht, runningT, rfl⟩), fun c hc => ?_, fun c d hc => ?_,
    fun x y => ?_⟩
  · refine ⟨kept hc ?_ nofun, kept hc ?_ nofun, kept hc ?_ nofun, kept hc ?_ nofun, kept hc ?_ nofun⟩ <;>
      simp [initPairs]
  · rw [columns c d (hn ▸ hc), render_fb takenU ht, hfb]
  · rw [(shown initialized).2, hpixel, State.pixel_eq, State.pixel_eq, hgrid, hfb]

/-! ### The display before the boot (70_reset_and_hazards R224, R231) -/

theorem booted_eq_false_of_not_rendered {s : State} (h : s.rendered = false) : s.booted = false := by
  rw [State.booted, h, Bool.and_false]

/-- Settles O30: a RENDER makes the display mean something on initialized chips only, and no other command does
(`render_booted`, `runCommands_rendered`). -/
theorem displayUnspecifiedBeforeBoot : Obligations.DisplayUnspecifiedBeforeBoot := by
  refine ⟨fun s x y unbooted => displayLit_unbooted unbooted x y, fun s x y d booted hd => displayLit_booted booted hd,
    fun s uninitialized taken => ?_, fun s t is unrendered noRender run x y => displayLit_unbooted ?_ x y⟩
  · obtain ⟨t, ht⟩ : ∃ t, exec .render s = .next t := ⟨_, execRender_eq s⟩
    have unbooted : t.booted = false := (render_booted taken ht).trans uninitialized
    have hepoch : t.chainEpoch = s.chainEpoch := by rw [render_emitted taken ht]
    have hsent : t.delivered.length = s.delivered.length + 8 := by
      rw [render_emitted taken ht, List.length_append, List.length_map, askedBursts_render_length]
    refine ⟨t, ht, render_out taken ht, fun x y => ?_⟩
    rw [displayLit_unbooted unbooted, render_pixel taken ht, hepoch, hsent]
  · refine booted_eq_false_of_not_rendered (Bool.eq_false_iff.2 fun rendered => ?_)
    rw [runCommands_rendered noRender run rendered] at unrendered
    cases unrendered

/-! ### The WRITE commands beside the frame buffer (70_reset_and_hazards R227) -/

/-- Settles O36: emissions write neither storage nor RESP nor the grid, and GET's answer is a function of these. -/
theorem writeCommandsBypassBuffer : Obligations.WriteCommandsBypassBuffer := by
  intro i s hp
  obtain ⟨t, ht⟩ : ∃ t, exec i s = .next t := ⟨_, exec_eq_emitLoop s hp⟩
  have changes := emitLoop_changes (Host.Outcome.next.inj (ht.symm.trans (exec_eq_emitLoop s hp)))
  have hfb : t.fb = s.fb := by rw [changes]
  have hresp : t.resp = s.resp := by rw [changes]
  have hgrid : t.grid = s.grid := by rw [changes]; rfl
  have hpixel (x y : Nat) : t.pixel x y = s.pixel x y := by rw [State.pixel_eq, State.pixel_eq, hgrid, hfb]
  refine ⟨t, ht, hfb, hresp, fun x y => ⟨_, _, _, execGet_eq x y t, execGet_eq x y s, ?_, rfl⟩⟩
  rw [State.advance_resp, State.respond_resp, hresp, hpixel]

/-! ### Legal and illegal configurations (70_reset_and_hazards R220, R221) -/

theorem configLegal_iff {arg : ConfigArg} :
    configLegal arg = true ↔ 1 ≤ arg.cols ∧ 1 ≤ arg.rows ∧ arg.cols ≤ 2 ^ 29 ∧ arg.rows ≤ 2 ^ 29 ∧
      arg.cols * arg.rows ≤ 2 ^ 32 - 1 ∧ arg.brightness ≤ 15 := by
  simp only [configLegal, Bool.and_eq_true, decide_eq_true_eq, and_assoc]

/-- A legal argument fits the configuration registers, which hold it as it stands. -/
theorem load_of_configLegal {arg : ConfigArg} (h : configLegal arg = true) :
    loadCols arg = BitVec.ofNat 32 arg.cols ∧ loadRows arg = BitVec.ofNat 32 arg.rows ∧
      loadBrightness arg = BitVec.ofNat 4 arg.brightness := by
  obtain ⟨-, -, hcols, hrows, -, hbrightness⟩ := configLegal_iff.1 h
  exact ⟨if_pos (by omega), if_pos (by omega), if_pos (by omega)⟩

theorem load_toNat_of_configLegal {arg : ConfigArg} (h : configLegal arg = true) :
    (loadCols arg).toNat = arg.cols ∧ (loadRows arg).toNat = arg.rows ∧
      (loadBrightness arg).toNat = arg.brightness := by
  obtain ⟨-, -, hcols, hrows, -, hbrightness⟩ := configLegal_iff.1 h
  obtain ⟨eCols, eRows, eBrightness⟩ := load_of_configLegal h
  rw [eCols, eRows, eBrightness]
  exact ⟨Nat.mod_eq_of_lt (by omega), Nat.mod_eq_of_lt (by omega), Nat.mod_eq_of_lt (by omega)⟩

/-- A reset by the host, pending as the next action, is the next step. -/
theorem step_reset (s : State) (ws : List Word) (rest : List HostAction) :
    step { s with host := .reset ws :: rest } = .next (State.resetBlock { s with host := rest } ws) :=
  step_of_host (s := { s with host := .reset ws :: rest }) rfl

/-- Settles O52: a reset is a power-up with the run's argument that keeps the chain, and a legal argument fits the
registers it is loaded into. -/
theorem resetLoadsAndClears : Obligations.ResetLoadsAndClears := by
  refine ⟨fun s ws rest legal => ?_, fun arg legal => ?_⟩
  · obtain ⟨hcols, hrows, hbrightness⟩ := load_of_configLegal legal
    rw [step_reset]
    simp [State.resetBlock, State.powerUp, legal, hcols, hrows, hbrightness]
  · obtain ⟨hcols, hrows, hbrightness⟩ := load_toNat_of_configLegal legal
    exact ⟨hcols, hrows, hbrightness, by simp [State.powerUp, legal], rfl, by simp [State.powerUp, legal], rfl, rfl, rfl,
      fun a ha => State.memRead_eq ha⟩

/-- Settles O53: the listed cases are the bounds of `configLegal` turned round, and both resets leave the flags of a
power-up, which stop the block's next step. -/
theorem illegalConfigurationRefused : Obligations.IllegalConfigurationRefused := by
  refine ⟨fun arg => ?_, fun arg cmd answers illegal => ?_, fun s ws illegal => ?_⟩
  · rw [← Bool.not_eq_true, configLegal_iff]
    omega
  · obtain ⟨hrefused, hinfo⟩ := refusalIsPrecise.2 arg illegal
    exact ⟨hrefused, hinfo, (step_of_no_host rfl).trans (commandStep_of_refused hrefused)⟩
  · obtain ⟨hrefused, hinfo⟩ := refusalIsPrecise.2 s.cfgArg illegal
    exact ⟨_, step_reset s ws [], hrefused, hinfo, (step_of_no_host rfl).trans (commandStep_of_refused hrefused)⟩

/-! ### The invariant where a run starts (10_state section 7) -/

/-- Settles O55: a start lists no cell, no burst and no delivery, and records a halt exactly where it is refused. -/
theorem invariantAtEveryStart : Obligations.InvariantAtEveryStart := by
  intro arg cmd host answers
  exact {
    storageWf := ⟨List.Pairwise.nil, nofun⟩
    storageBound := nofun
    chainSorted := List.Pairwise.nil
    chainKeys := nofun
    bursts := nofun
    latched := nofun
    config := ⟨rfl, rfl, rfl⟩
    illegalRefused := fun illegal => (refusalIsPrecise.2 arg illegal).1
    oneHalt := nofun
    haltRecorded := by cases hc : configLegal arg <;> simp [State.start, State.powerUp, hc]
    haltPosition := by cases hc : configLegal arg <;> simp [State.start, State.powerUp, hc]
    position := Nat.zero_le _ }

/-- Settles O54: `State.reset` is the start with the argument of log 1, no words, no schedule and no answers. -/
theorem invariantAtReset : Obligations.InvariantAtReset := invariantAtEveryStart Config.resetArg [] [] []

end Sys2Proof.Machine
end
